-- ==== Sys2Proof/Word.lean ====
section
/-! DEFINITION. The widths of spec/00_scope.md R8: a bit pattern, an exponent port and a mantissa port are 32 bits. -/

namespace Sys2Proof

/-- A 32-bit port value: a pattern, a mantissa, or an exponent in two's complement (R8, R26, R27). -/
abbrev Word := BitVec 32

/-- The six-bit `flags` output (R27, R200). -/
abbrev FlagBits := BitVec 6

end Sys2Proof
end

