-- ==== Sys2Proof/Syntax.lean ====
section
/-! DEFINITION. The operations, and the request and response they are carried in (spec/30_encoding.md). -/

namespace Sys2Proof

/-- One operation with the operands it reads, one constructor per row of spec/opcode_table.json.
Operands R64 marks "ignored" are no part of it (log entry 11). The exponent of PACK is the integer
R65 assembles and the count of SHIFT_ROUND the number R64 reads as unsigned (log entry 12). -/
inductive Instr where
  /-- R180: the sum of the patterns `x` and `y`. -/
  | fadd (x y : Word)
  /-- R182: the pattern `x` minus the pattern `y`. -/
  | fsub (x y : Word)
  /-- R106: the triple of the pattern `p`. -/
  | decompose (p : Word)
  /-- R107: the pattern of sign `s` (true is 1, negative), exponent `e`, mantissa `m`. -/
  | pack (s : Bool) (e : Int) (m : Word)
  /-- R126: the mantissa `m` shifted right by `n` with rounding. -/
  | shiftRound (m : Word) (n : Nat)
deriving DecidableEq, Repr

/-- The request ports `s_in`, `op`, `b`, `a` of one cycle (R26), the fields of the request word W (R62). -/
structure Request where
  sIn : Bool
  op  : BitVec 3
  b   : Word
  a   : Word
deriving DecidableEq, Repr

/-- The response ports of a cycle with `resp_valid` = 1 (R27), the fields of the response word Q (R69). -/
structure Response where
  flags : FlagBits
  rSign : Bool
  rExp  : Word
  rMan  : Word
  r     : Word
deriving DecidableEq, Repr, Inhabited

end Sys2Proof
end

