-- ==== Sys2Proof/WellFormed.lean ====
section
/-! DEFINITION. Which instruction terms stand for a request: the integer operands fit their ports. -/

namespace Sys2Proof

/-- R8, R65: an exponent operand is an i32, an integer in [-2^31, 2^31 - 1]. -/
def exponentFits (e : Int) : Bool := decide (-(2 ^ 31) ≤ e) && decide (e ≤ 2 ^ 31 - 1)

/-- R64: a shift count is a u32. -/
def countFits (n : Nat) : Bool := decide (n < 2 ^ 32)

/-- The checks on an instruction term. Pattern and mantissa operands are whole words, so every value fits. -/
def Instr.wellFormed : Instr → Bool
  | .fadd _ _ => true
  | .fsub _ _ => true
  | .decompose _ => true
  | .pack _ e _ => exponentFits e
  | .shiftRound _ n => countFits n

/-- The instruction term stands for some request word. -/
abbrev WellFormed (i : Instr) : Prop := i.wellFormed = true

end Sys2Proof
end

