-- ==== Sys2Proof/Decode.lean ====
section
/-! DEFINITION. The request word W and the response word Q, the decoder, and after it the encoder
(spec/30_encoding.md R62 to R69). The block decodes the request ports; W is the same fields as one number. -/

namespace Sys2Proof

/-- R62: the ports written as the 68-bit word W, `s_in` in bit 67, `op` in 66..64, `b` in 63..32, `a` in 31..0. -/
def Request.toWord (q : Request) : BitVec 68 := BitVec.ofBool q.sIn ++ q.op ++ q.b ++ q.a

/-- R62: the ports a 68-bit word W stands for. -/
def Request.ofWord (w : BitVec 68) : Request :=
  { sIn := w.getLsbD 67, op := w.extractLsb' 64 3, b := w.extractLsb' 32 32, a := w.extractLsb' 0 32 }

/-- R69: the response ports written as the 103-bit word Q, `flags` in bits 102..97, `r_sign` in 96,
`r_exp` in 95..64, `r_man` in 63..32, `r` in 31..0. -/
def Response.toWord (q : Response) : BitVec 103 :=
  q.flags ++ BitVec.ofBool q.rSign ++ q.rExp ++ q.rMan ++ q.r

/-- R69: the response ports a 103-bit word Q stands for. -/
def Response.ofWord (w : BitVec 103) : Response :=
  { flags := w.extractLsb' 97 6, rSign := w.getLsbD 96, rExp := w.extractLsb' 64 32,
    rMan := w.extractLsb' 32 32, r := w.extractLsb' 0 32 }

/-- Why a request names no operation. -/
inductive DecodeError where
  /-- R67: `op` is 0b101, 0b110 or 0b111. The block answers such a request with ILLEGAL_OP. -/
  | reservedOp (op : BitVec 3)
  /-- R68: a number that does not fit in 68 bits is no request word. -/
  | tooLong
deriving DecidableEq, Repr

/-- The operation codes of R63. -/
def Instr.opcode : Instr → BitVec 3
  | .fadd _ _ => 0b000#3
  | .fsub _ _ => 0b001#3
  | .decompose _ => 0b010#3
  | .pack _ _ _ => 0b011#3
  | .shiftRound _ _ => 0b100#3

/-- The operation the request ports name: R63 for the code, R64 and R65 for the operands, R67 for the reserved
codes. Operands R64 marks "ignored" are not read (R66). -/
def decodeRequest (q : Request) : Except DecodeError Instr :=
  match q.op.toNat with
  | 0 => .ok (.fadd q.a q.b)
  | 1 => .ok (.fsub q.a q.b)
  | 2 => .ok (.decompose q.a)
  | 3 => .ok (.pack q.sIn q.a.toInt q.b)
  | 4 => .ok (.shiftRound q.a q.b.toNat)
  | _ => .error (.reservedOp q.op)

/-- The operation of a request word W. -/
def decode (w : BitVec 68) : Except DecodeError Instr := decodeRequest (Request.ofWord w)

/-- The operation of a number read as a request word: total, rejecting what is longer than 68 bits. -/
def decodeNumber (w : Nat) : Except DecodeError Instr :=
  if w < 2 ^ 68 then decode (BitVec.ofNat 68 w) else .error .tooLong

/-- The ports that request an operation, ignored inputs 0 (log entry 11). -/
def encodeRequest (i : Instr) : Request :=
  match i with
  | .fadd x y => { sIn := false, op := i.opcode, b := y, a := x }
  | .fsub x y => { sIn := false, op := i.opcode, b := y, a := x }
  | .decompose p => { sIn := false, op := i.opcode, b := 0, a := p }
  | .pack s e m => { sIn := s, op := i.opcode, b := m, a := BitVec.ofInt 32 e }
  | .shiftRound m n => { sIn := false, op := i.opcode, b := BitVec.ofNat 32 n, a := m }

/-- The request word W of an operation. -/
def encode (i : Instr) : BitVec 68 := (encodeRequest i).toWord

/-- A table word of `nbits` bits (bit 0 the least significant bit of W; the bits above `nbits` are 0), read by the
decoder. -/
def decodeTableWord (nbits w : Nat) : Option Instr :=
  match decodeNumber (w % 2 ^ nbits) with
  | .ok i => some i
  | .error _ => none

end Sys2Proof
end

