-- ==== Sys2Proof/Config.lean ====
section
/-! DEFINITION. What a build of the block fixes (spec/00_scope.md R9) and the values the spec leaves free. -/

namespace Sys2Proof.Config

/-- `SPECIAL_INPUT_POLICY` (R9, R102). -/
inductive SpecialInputPolicy where
  | reject
  | raw
deriving DecidableEq, Repr

/-- `ALIGN_FAR_POLICY` (R9, R142). -/
inductive AlignFarPolicy where
  | round
  | flush
deriving DecidableEq, Repr

/-- `UNDERFLOW_POLICY` (R9, R168). -/
inductive UnderflowPolicy where
  | flush
  | asIs
deriving DecidableEq, Repr

/-- The four parameters, fixed when the block is built and never changed at run time (R9, R23). -/
structure Params where
  latency      : Nat
  specialInput : SpecialInputPolicy
  alignFar     : AlignFarPolicy
  underflow    : UnderflowPolicy
deriving DecidableEq, Repr

/-- The defaults of R9. `LATENCY` is OPEN there and has no default: 0 is DESIGN CHOICE, unsafe (log entry 2);
statements quantify over every `Params`. -/
def Params.default : Params :=
  { latency := 0, specialInput := .reject, alignFar := .round, underflow := .flush }

/-- FREE VALUE: what a block with LATENCY >= 1 shows on `resp_valid` from power-up until `rst` has been 1 for a cycle (R233, U10;
log entry 6). Its argument is `State.cycle`. -/
opaque powerUpRespValid : Nat → Bool

/-- FREE VALUE: what the data outputs carry in a cycle with `resp_valid` = 0 (R27, U8; log entry 5).
Its argument is `State.cycle`. -/
opaque idleOutputs : Nat → Response

/-- FREE VALUE: what pipeline stage number `n` holds at power-up, before the first reset: an unknown valid
bit and unknown data (R233, U10; log entry 6). -/
opaque powerUpStage : Nat → Option Response

end Sys2Proof.Config
end

