-- ==== Sys2Proof/Machine/State.lean ====
section
/-! DEFINITION. The machine's state, as plain data, and the reasons a step can stop.
INVENTORY.md, "State", lists every field with the rule of spec/ that names it. -/

namespace Sys2Proof.Machine

open Sys2Proof.Config

/-- Reasons the machine stops with a fault: none. A fault of this block is a bit in the response of the request that
caused it, and the block goes on (spec/60_exceptions.md R204, R208; log entry 13). Safe. -/
inductive Fault : Type
deriving DecidableEq, Repr

/-- Reasons the model gives a step no meaning. -/
inductive Refusal where
  /-- Raised by `exec` for an instruction whose meaning is not written; no arm of `exec` does. Safe. -/
  | notModelled (mnemonic : String)
  /-- Raised by `step` when the host stops the clock of a pipelined block (LATENCY >= 1): R216 puts what then happens
  to the pipeline outside the spec, and U13 says `refuse` (log entry 8). Safe. -/
  | clockStopped
deriving DecidableEq, Repr

/-- The input ports of one cycle (spec/10_state.md R26). `rst` is read only when LATENCY >= 1. -/
structure InPorts where
  rst      : Bool
  reqValid : Bool
  req      : Request
deriving DecidableEq, Repr

/-- What the host does next: drive the input ports for one cycle, or stop the clock (R216). -/
inductive HostEvent where
  | cycle (ports : InPorts)
  | clockStop
deriving DecidableEq, Repr

/-- A pipeline stage or the output register: the valid bit is `isSome`, the data the response travelling in it.
An empty slot has no data, since its data is never observable (R29, R30; log entry 4). -/
abbrev Slot := Option Response

/-- How far the block is from power-up, which decides whether `resp_valid` can be relied on (R233, U10; log entry 6). It says
what the host has done, not what the block holds: nothing but the ports `resp_valid` and the outputs under it reads it. -/
inductive Boot where
  /-- No cycle with `rst` = 1 has run. -/
  | powerUp
  /-- The cycle just run was the first with `rst` = 1: its outputs were fixed at the edge that began it (R231). -/
  | firstReset
  /-- A cycle with `rst` = 1 lies before the cycle just run. -/
  | ready
deriving DecidableEq, Repr

/-- The machine between two cycles. -/
structure State where
  /-- The build's parameters (R9): no step changes them (log entry 1). -/
  params : Params
  /-- MODEL'S OWN: what the host does in the cycles to come; after the last it presents nothing (log entry 3). -/
  inputs : List HostEvent
  /-- The `LATENCY` pipeline stages, oldest first (R29). -/
  pipe   : List Slot
  /-- The response due on the output ports in the cycle just run (R28), `none` where none is. The ports show it from the first
  reset on (`State.respValid`, `State.outputs`; R27, R233). -/
  resp   : Slot
  /-- MODEL'S OWN: whether the host has reset the block since power-up (log entry 6). -/
  boot   : Boot
  /-- MODEL'S OWN: cycles run so far, the argument of the free value the ports show while `resp_valid` = 0 or
  before the first reset (log entries 5 and 6). -/
  cycle  : Nat
deriving DecidableEq, Repr

/-- A block built with parameters `p`, right after reset (R30): no response pending, none on the outputs, and
`resp_valid` reliable. -/
def State.resetWith (p : Params) : State :=
  { params := p, inputs := [], pipe := List.replicate p.latency none, resp := none, boot := .ready, cycle := 0 }

/-- The block with the parameters of `Params.default`, right after reset (R30; log entries 2, 5, 6 and 7). -/
def State.reset : State := State.resetWith Params.default

end Sys2Proof.Machine
end

