-- ==== Sys2Proof/Machine/Operands.lean ====
section
/-! DEFINITION. The fields and classes of a pattern (spec/30_encoding.md R60, R61, R70). How each operation's operands
are read from the request ports (R64, R65) is `decodeRequest` in Decode.lean. -/

namespace Sys2Proof.Machine

/-- R61: `S(p)` = p[31], true is 1, negative. -/
def signBit (p : Word) : Bool := p.getLsbD 31

/-- R61: `E(p)` = p[30:23], unsigned. -/
def biasedExp (p : Word) : Nat := (p.extractLsb' 23 8).toNat

/-- R61: `F(p)` = p[22:0], unsigned. -/
def fraction (p : Word) : Nat := (p.extractLsb' 0 23).toNat

/-- R70: the low 31 bits are all zero. -/
def isTrueZero (p : Word) : Bool := p.extractLsb' 0 31 == 0

/-- R70: biased exponent 1 to 254. -/
def isNormal (p : Word) : Bool := decide (1 ≤ biasedExp p) && decide (biasedExp p ≤ 254)

/-- R70: biased exponent 0 and a nonzero fraction. -/
def isSubnormalKind (p : Word) : Bool := decide (biasedExp p = 0) && decide (fraction p ≠ 0)

/-- R70: biased exponent 255. -/
def isAllOnesKind (p : Word) : Bool := decide (biasedExp p = 255)

/-- R15, R70: a special pattern is of one of the two kinds the source calls unsupported. -/
def isSpecial (p : Word) : Bool := isAllOnesKind p || isSubnormalKind p

/-- R15: y with bit 31 inverted. -/
def flipSign (y : Word) : Word := y ^^^ 0x80000000#32

end Sys2Proof.Machine
end

