-- ==== Sys2Proof/Machine/Flags.lean ====
section
/-! DEFINITION. The `flags` output (spec/60_exceptions.md R200): four fault bits and two status bits. -/

namespace Sys2Proof.Machine

/-- The faults of R200. -/
inductive FaultKind where
  /-- A reserved `op` (R201). -/
  | illegalOp
  /-- A special operand under REJECT (R202). -/
  | unsupported
  /-- A shift count above 23 (R203). -/
  | shiftRange
  /-- `pack` with e + 127 outside [0, 255] (R203). -/
  | packRange
deriving DecidableEq, Repr

/-- R200: the bit of `flags` each fault sets. -/
def FaultKind.mask : FaultKind → FlagBits
  | .illegalOp => 0x01#6
  | .unsupported => 0x02#6
  | .shiftRange => 0x04#6
  | .packRange => 0x08#6

/-- The status flags a result is accompanied by (R206). -/
structure Status where
  overflow  : Bool
  underflow : Bool
deriving DecidableEq, Repr

/-- R200: OVERFLOW is bit 4, UNDERFLOW is bit 5. -/
def Status.mask (st : Status) : FlagBits :=
  (if st.overflow then 0x10#6 else 0) ||| (if st.underflow then 0x20#6 else 0)

/-- No status flag set. -/
def Status.clear : Status := { overflow := false, underflow := false }

/-- R200: a fault bit is set, so the request produced no result. -/
def hasFault (f : FlagBits) : Bool := f &&& 0x0F#6 != 0

end Sys2Proof.Machine
end

