-- ==== Sys2Proof/Machine/Ops.lean ====
section
/-! DEFINITION. The shared operations: the codec, the shifter, alignment, combination, renormalization and packing of a
result (spec/40 to 43), the response of a result and of a fault (spec/60), and the clock, reset and input ports
(spec/10, 70). The arithmetic is on unbounded integers (R11, R148; log entry 15). -/

namespace Sys2Proof.Machine

open Sys2Proof.Config

/-- R13: a triple (s, e, m): sign (true is 1, negative), unbiased exponent, mantissa. -/
structure Triple where
  sign : Bool
  exp  : Int
  man  : Nat
deriving DecidableEq, Repr

/-! ### Bit codec (spec/40_bit_codec.md) -/

/-- R101: a pattern's triple, the implicit bit made explicit unless the low 31 bits are zero. -/
def decompose (p : Word) : Triple :=
  { sign := signBit p
    exp  := (biasedExp p : Int) - 127
    man  := if isTrueZero p then 0 else fraction p ||| 0x800000 }

/-- R102: `decompose`, after the check `SPECIAL_INPUT_POLICY` asks for. -/
def checkedDecompose (policy : SpecialInputPolicy) (p : Word) : Except FaultKind Triple :=
  if policy = .reject ∧ isSpecial p then .error .unsupported else .ok (decompose p)

/-- R104, R105: a triple's pattern, or PACK_RANGE. -/
def pack (s : Bool) (e : Int) (m : Nat) : Except FaultKind Word :=
  if e + 127 < 0 ∨ e + 127 > 255 then .error .packRange
  else .ok (BitVec.ofNat 32 ((s.toNat <<< 31) ||| ((e + 127).toNat <<< 23) ||| (m &&& 0x7FFFFF)))

/-! ### Rounding shifter (spec/41_rounding_shifter.md) -/

/-- R120: the mask of the discarded bits. -/
def shiftedMask (n : Nat) : Nat := (1 <<< n) - 1

/-- R120: the halfway bit. -/
def halfwayMask (n : Nat) : Nat := if n = 0 then 0 else 1 <<< (n - 1)

/-- R121: shift right by `n`, to nearest, ties to even. The callers keep `n` ≤ 23 (R123; log entry 16). -/
def srr (m n : Nat) : Nat :=
  if n = 0 then m
  else
    let shiftedOut := m &&& shiftedMask n
    let value := m >>> n
    let halfway := halfwayMask n
    if shiftedOut > halfway then value + 1
    else if shiftedOut = halfway then (if value % 2 = 1 then value + 1 else value)
    else value

/-! ### Alignment and combination (spec/42_alignment_combination.md) -/

/-- R142: the aligned mantissa for a difference `d` ≥ 24. -/
def farAlign (policy : AlignFarPolicy) (m d : Nat) : Nat :=
  match policy with
  | .round => if d = 24 ∧ m > 0x800000 then 1 else 0
  | .flush => 0

/-- R141: a mantissa shifted right by the exponent difference `d`. -/
def shiftAlign (policy : AlignFarPolicy) (m d : Nat) : Nat :=
  if d ≤ 23 then srr m d else farAlign policy m d

/-- What `align` returns: the common exponent and the aligned mantissas of x and y. -/
structure Aligned where
  exp : Int
  ma  : Nat
  mb  : Nat
deriving DecidableEq, Repr

/-- R141: the operand with the smaller exponent is shifted to the larger exponent. -/
def align (policy : AlignFarPolicy) (ex : Int) (mx : Nat) (ey : Int) (my : Nat) : Aligned :=
  if ex ≥ ey then { exp := ex, ma := mx, mb := shiftAlign policy my (ex - ey).toNat }
  else { exp := ey, ma := shiftAlign policy mx (ey - ex).toNat, mb := my }

/-- R144, R145: sign and magnitude of the sum of two aligned mantissas; the right-hand operand wins ties. -/
def combine (sx : Bool) (ma : Nat) (sy : Bool) (mb : Nat) : Bool × Nat :=
  if sx ≠ sy then (if ma > mb then (sx, ma - mb) else (sy, mb - ma))
  else (sx, ma + mb)

/-- R146: the combined triple of two decomposed operands. -/
def combined (policy : AlignFarPolicy) (tx ty : Triple) : Triple :=
  let al := align policy tx.exp tx.man ty.exp ty.man
  let c := combine tx.sign al.ma ty.sign al.mb
  { sign := c.1, exp := al.exp, man := c.2 }

/-! ### Renormalization and result (spec/43_renormalization.md) -/

/-- R162: at most `fuel` steps of the underflow loop. 23 steps are enough (R237; log entry 14). -/
def normLoop : Nat → Int → Nat → Int × Nat
  | 0, e, m => (e, m)
  | fuel + 1, e, m =>
    if m < 0x800000 ∧ e > -127 then normLoop fuel (e - 1) (m <<< 1) else (e, m)

/-- R160: overflow (R161), exact zero (R163), cancellation (R162), or already normalized (R164). -/
def renorm (t : Triple) : Triple :=
  if t.man ≥ 0x1000000 then { t with exp := t.exp + 1, man := srr t.man 1 }
  else if t.man = 0 then { sign := false, exp := -127, man := 0 }
  else if t.man < 0x800000 then
    let c := normLoop 23 t.exp t.man
    { t with exp := c.1, man := c.2 }
  else t

/-- R166 to R168: the result pattern and status flags of a renormalized triple, or PACK_RANGE. -/
def finish (policy : UnderflowPolicy) (t : Triple) : Except FaultKind (Word × Status) :=
  let below := decide (t.man ≠ 0 ∧ t.exp = -127)
  if below = true ∧ policy = .flush then .ok (0, { overflow := false, underflow := true })
  else
    match pack t.sign t.exp t.man with
    | .error k => .error k
    | .ok r => .ok (r, { overflow := decide (t.exp = 128), underflow := below })

/-- R180: `fadd(x, y)`, the whole path from two patterns to a result or a fault. Both operands are checked before any
arithmetic (R181). -/
def addPatterns (p : Params) (x y : Word) : Except FaultKind (Word × Status) :=
  match checkedDecompose p.specialInput x with
  | .error k => .error k
  | .ok tx =>
    match checkedDecompose p.specialInput y with
    | .error k => .error k
    | .ok ty => finish p.underflow (renorm (combined p.alignFar tx ty))

/-! ### Responses (spec/60_exceptions.md, 10_state.md R27) -/

/-- TAKING A FAULT (R204): the one fault bit, every data output 0. Nothing is saved and control does not move (R208), and
there is no return from it (R209). -/
def Response.ofFault (k : FaultKind) : Response :=
  { flags := k.mask, rSign := false, rExp := 0, rMan := 0, r := 0 }

/-- R27: a pattern or mantissa on `r` with its status flags, the triple outputs 0. -/
def Response.ofResult (r : Word) (st : Status) : Response :=
  { flags := st.mask, rSign := false, rExp := 0, rMan := 0, r := r }

/-- R27, R106: a triple on `r_sign`, `r_exp` (two's complement) and `r_man`; `r` and `flags` 0. -/
def Response.ofTriple (t : Triple) : Response :=
  { flags := 0, rSign := t.sign, rExp := BitVec.ofInt 32 t.exp, rMan := BitVec.ofNat 32 t.man, r := 0 }

/-! ### Clock, reset and ports (spec/10_state.md R26 to R29, 70_reset_and_hazards.md) -/

/-- What a cycle with `rst` = 0 leaves of the distance from power-up: without a reset it stays as it is (R233). -/
def Boot.afterCycle : Boot → Boot
  | .powerUp => .powerUp
  | .firstReset => .ready
  | .ready => .ready

/-- What a cycle with `rst` = 1 leaves of it: the first such cycle is not yet one whose `resp_valid` is reliable (R231, R233). -/
def Boot.afterReset : Boot → Boot
  | .powerUp => .firstReset
  | .firstReset => .ready
  | .ready => .ready

/-- R28, R29: one cycle with `rst` = 0. What was accepted (`none`: nothing was presented) enters behind the stages, the
oldest of them is the response due in the cycle, and the others move on. With no stages (LATENCY = 0) the
accepted one is due in the same cycle. -/
def State.clock (s : State) (accepted : Slot) : State :=
  let q := s.pipe ++ [accepted]
  { s with pipe := q.tail, resp := q.headD none, boot := s.boot.afterCycle, cycle := s.cycle + 1 }

/-- The block accepts a request whose response is `q`. -/
def State.answer (s : State) (q : Response) : State := s.clock (some q)

/-- R231, R232: one cycle with `rst` = 1. The response due in the cycle is delivered, every valid bit becomes 0, nothing
presented is accepted. -/
def State.clockReset (s : State) : State :=
  { s with pipe := List.replicate s.params.latency none, resp := s.pipe.headD none, boot := s.boot.afterReset,
           cycle := s.cycle + 1 }

/-- R201: a request with a reserved `op` is answered with ILLEGAL_OP. -/
def State.answerIllegalOp (s : State) : State := s.answer (Response.ofFault .illegalOp)

/-- R233: the `resp_valid` of the cycle just run follows the rules: the block has no reset (R230), or has been reset before. -/
def State.reliable (s : State) : Bool := s.params.latency == 0 || s.boot == .ready

/-- R27: the `resp_valid` output of the cycle just run, a free value from power-up until after the first reset (R233, U10;
log entry 6). -/
def State.respValid (s : State) : Bool := if s.reliable then s.resp.isSome else powerUpRespValid s.cycle

/-- R27: the other outputs of the cycle just run: the response due, or a free value while `resp_valid` = 0 (U8; log entry 5) or
where `resp_valid` is 1 and none is due (R233). -/
def State.outputs (s : State) : Response :=
  if s.respValid then s.resp.getD (idleOutputs s.cycle) else idleOutputs s.cycle

/-- R233: a block built with parameters `p` at power-up: what its stages hold is unknown, and no reset has run (log entry 6). -/
def State.powerUp (p : Params) : State :=
  { State.resetWith p with pipe := (List.range p.latency).map powerUpStage, boot := .powerUp }

/-- What the host has the block do in a cycle. -/
inductive CycleKind where
  /-- Nothing is presented. -/
  | idle
  /-- `rst` = 1 on a block that has the port. -/
  | reset
  /-- A request is presented and accepted. -/
  | request (q : Request)
  /-- The clock of a pipelined block stops. -/
  | clockStopped
  /-- The clock of a block that has none stops: no cycle passes and nothing changes (log entry 8). -/
  | nothing
deriving DecidableEq, Repr

/-- How a block with latency `l` takes the input ports of a cycle: `rst` exists only for LATENCY >= 1 (R26, R230) and wins over
a request (R232). -/
def InPorts.kind (l : Nat) (ports : InPorts) : CycleKind :=
  if ports.rst = true ∧ 1 ≤ l then .reset
  else if ports.reqValid then .request ports.req
  else .idle

/-- What happens next, and the state with that input taken. After the last listed input the host presents nothing. -/
def State.fetch (s : State) : CycleKind × State :=
  match s.inputs with
  | [] => (.idle, s)
  | .cycle ports :: rest => (ports.kind s.params.latency, { s with inputs := rest })
  | .clockStop :: rest => (if 1 ≤ s.params.latency then .clockStopped else .nothing, { s with inputs := rest })

/-- The input ports of a cycle that presents the request `q`. -/
def InPorts.present (q : Request) : InPorts := { rst := false, reqValid := true, req := q }

/-- `s` with the request `q` presented in its next cycle, in place of what the host had presented in it. -/
def State.present (s : State) (q : Request) : State :=
  { s with inputs := .cycle (InPorts.present q) :: s.inputs.tail }

end Sys2Proof.Machine
end

