-- ==== Sys2Proof/Machine/AddSub.lean ====
section
/-! DEFINITION. FADD and FSUB (spec/44_fadd_fsub.md R180 to R182). -/

namespace Sys2Proof.Machine

open Sys2Proof.Config

/-- R180: the response to FADD. -/
def respondFadd (params : Params) (x y : Word) : Response :=
  match addPatterns params x y with
  | .ok (r, st) => Response.ofResult r st
  | .error k => Response.ofFault k

/-- R182: the response to FSUB, the sum of `x` and `y` with bit 31 flipped. -/
def respondFsub (params : Params) (x y : Word) : Response :=
  match addPatterns params x (flipSign y) with
  | .ok (r, st) => Response.ofResult r st
  | .error k => Response.ofFault k

/-- FADD (R180). -/
def execFadd (x y : Word) (s : State) : Host.Outcome State Fault Refusal :=
  .next (s.answer (respondFadd s.params x y))

/-- FSUB (R182). -/
def execFsub (x y : Word) (s : State) : Host.Outcome State Fault Refusal :=
  .next (s.answer (respondFsub s.params x y))

end Sys2Proof.Machine
end

