-- ==== Sys2Proof/Machine/Codec.lean ====
section
/-! DEFINITION. DECOMPOSE and PACK (spec/40_bit_codec.md R106, R107). -/

namespace Sys2Proof.Machine

open Sys2Proof.Config

/-- R106: the response to DECOMPOSE. -/
def respondDecompose (params : Params) (p : Word) : Response :=
  match checkedDecompose params.specialInput p with
  | .ok t => Response.ofTriple t
  | .error k => Response.ofFault k

/-- R107: the response to PACK. -/
def respondPack (s : Bool) (e : Int) (m : Word) : Response :=
  match pack s e m.toNat with
  | .ok r => Response.ofResult r Status.clear
  | .error k => Response.ofFault k

/-- DECOMPOSE (R106). -/
def execDecompose (p : Word) (s : State) : Host.Outcome State Fault Refusal :=
  .next (s.answer (respondDecompose s.params p))

/-- PACK (R107). -/
def execPack (sign : Bool) (e : Int) (m : Word) (s : State) : Host.Outcome State Fault Refusal :=
  .next (s.answer (respondPack sign e m))

end Sys2Proof.Machine
end

