-- ==== Sys2Proof/Machine/Shifter.lean ====
section
/-! DEFINITION. SHIFT_ROUND (spec/41_rounding_shifter.md R126). -/

namespace Sys2Proof.Machine

/-- R126: the response to SHIFT_ROUND. -/
def respondShiftRound (m : Word) (n : Nat) : Response :=
  if n > 23 then Response.ofFault .shiftRange
  else Response.ofResult (BitVec.ofNat 32 (srr m.toNat n)) Status.clear

/-- SHIFT_ROUND (R126). -/
def execShiftRound (m : Word) (n : Nat) (s : State) : Host.Outcome State Fault Refusal :=
  .next (s.answer (respondShiftRound m n))

end Sys2Proof.Machine
end

