-- ==== Sys2Proof/Machine/Dispatch.lean ====
section
/-! DEFINITION. Each operation's meaning, one arm per constructor of Instr. -/

namespace Sys2Proof.Machine

def exec (i : Instr) (s : State) : Host.Outcome State Fault Refusal :=
  match i with
  | .fadd x y => Sys2Proof.Machine.execFadd x y s
  | .fsub x y => Sys2Proof.Machine.execFsub x y s
  | .decompose p => Sys2Proof.Machine.execDecompose p s
  | .pack sign e m => Sys2Proof.Machine.execPack sign e m s
  | .shiftRound m n => Sys2Proof.Machine.execShiftRound m n s

end Sys2Proof.Machine
end

