-- ==== Sys2Proof/Machine/Step.lean ====
section
/-! DEFINITION. One step is one clock cycle (with LATENCY = 0, one evaluation of the inputs; log entry 3). -/

namespace Sys2Proof.Machine

/-- Take the host's next input and run the cycle it stands for. -/
def step (s : State) : Host.Outcome State Fault Refusal :=
  match s.fetch with
  | (.idle, s') => .next (s'.clock none)
  | (.reset, s') => .next s'.clockReset
  | (.clockStopped, _) => .refused .clockStopped
  | (.nothing, s') => .next s'
  | (.request q, s') =>
    match decodeRequest q with
    | .ok i => exec i s'
    | .error _ => .next s'.answerIllegalOp

/-- `s` with the table word `w` of `nbits` bits presented as the request of its next cycle (log entry 10). -/
def State.withFetchWord (s : State) (nbits w : Nat) : State :=
  s.present (Request.ofWord (BitVec.ofNat 68 (w % 2 ^ nbits)))

end Sys2Proof.Machine
end

