-- ==== Sys2Proof/Machine/Assembler.lean ====
section
/-! DEFINITION. The one-line written form of a request and of its response (spec/30_encoding.md R71), with single spaces
(log entry 17). Text only: the machine never reads it. -/

namespace Sys2Proof.Machine

/-- The mnemonics of R63. -/
def mnemonic : Instr → String
  | .fadd _ _ => "FADD"
  | .fsub _ _ => "FSUB"
  | .decompose _ => "DECOMPOSE"
  | .pack _ _ _ => "PACK"
  | .shiftRound _ _ => "SHIFT_ROUND"

/-- The low `width` hex digits of `v`, most significant first. -/
def hexDigits (width v : Nat) : List Char :=
  match width with
  | 0 => []
  | k + 1 =>
    let d := v / 16 ^ k % 16
    (if d < 10 then Char.ofNat (48 + d) else Char.ofNat (55 + d)) :: hexDigits k v

/-- A 32-bit hex literal, as R71 writes patterns and mantissas. -/
def hexWord (w : Word) : String := "0x" ++ String.ofList (hexDigits 8 w.toNat)

/-- R71: a sign is written 0 or 1. -/
def signText (s : Bool) : String := if s then "1" else "0"

/-- R71: the request line of an operation. -/
def requestLine (i : Instr) : String :=
  match i with
  | .fadd x y => mnemonic i ++ " " ++ hexWord x ++ ", " ++ hexWord y
  | .fsub x y => mnemonic i ++ " " ++ hexWord x ++ ", " ++ hexWord y
  | .decompose p => mnemonic i ++ " " ++ hexWord p
  | .pack s e m => mnemonic i ++ " " ++ signText s ++ ", " ++ toString e ++ ", " ++ hexWord m
  | .shiftRound m n => mnemonic i ++ " " ++ hexWord m ++ ", " ++ toString n

/-- The names of R200, in bit order, with their masks. -/
def flagNames : List (FlagBits × String) :=
  [(0x01#6, "ILLEGAL_OP"), (0x02#6, "UNSUPPORTED"), (0x04#6, "SHIFT_RANGE"), (0x08#6, "PACK_RANGE"),
    (0x10#6, "OVERFLOW"), (0x20#6, "UNDERFLOW")]

/-- The names of the flags set in `f`, each after a space. -/
def flagText (f : FlagBits) : String :=
  String.join ((flagNames.filter fun nm => f &&& nm.1 != 0).map fun nm => " " ++ nm.2)

/-- R71: the result as written: a triple for DECOMPOSE, a pattern or mantissa for the others. -/
def resultText (i : Instr) (q : Response) : String :=
  match i with
  | .decompose _ => "(" ++ signText q.rSign ++ ", " ++ toString q.rExp.toInt ++ ", " ++ hexWord q.rMan ++ ")"
  | .fadd _ _ => hexWord q.r
  | .fsub _ _ => hexWord q.r
  | .pack _ _ _ => hexWord q.r
  | .shiftRound _ _ => hexWord q.r

/-- R71: a request with its response after `->`. -/
def responseLine (i : Instr) (q : Response) : String :=
  requestLine i ++ " -> " ++ (if hasFault q.flags then "FAULT" else resultText i q) ++ flagText q.flags

end Sys2Proof.Machine
end

