-- ==== Sys2Proof/Safety.lean ====
section
/-! DEFINITION. The terms the claims use: the response of a request, what one answered cycle leaves, legal responses, the
machine's invariant, quiet inputs, many steps, and the number a triple denotes. -/

namespace Sys2Proof.Machine

open Sys2Proof.Config

/-- The response of an operation, a function of the operation and the build's parameters alone (R20, R46). -/
def respond (params : Params) : Instr → Response
  | .fadd x y => respondFadd params x y
  | .fsub x y => respondFsub params x y
  | .decompose p => respondDecompose params p
  | .pack s e m => respondPack s e m
  | .shiftRound m n => respondShiftRound m n

/-- The response of a request (R46), ILLEGAL_OP for a reserved `op` (R67). -/
def respondRequest (params : Params) (q : Request) : Response :=
  match decodeRequest q with
  | .ok i => respond params i
  | .error _ => Response.ofFault .illegalOp

/-- What a cycle with `rst` = 0 accepts. -/
def InPorts.accepted (params : Params) (ports : InPorts) : Slot :=
  if ports.reqValid then some (respondRequest params ports.req) else none

/-- The response with flags `f`, `r` on the result output and the triple outputs 0 (R27). -/
def bareResponse (f : FlagBits) (r : Word) : Response :=
  { flags := f, rSign := false, rExp := 0, rMan := 0, r := r }

/-- `t` is `s` one cycle later, the request with response `q` accepted in it: the parameters and the host's further inputs
are as they were, the oldest of the stages and `q` has become the response due, the others are in the stages. `inputs`, `boot` and
`cycle` are the model's own (log entries 3, 5 and 6). -/
def Answered (s t : State) (q : Response) : Prop :=
  t.params = s.params ∧ t.inputs = s.inputs ∧ t.boot = s.boot.afterCycle ∧ t.cycle = s.cycle + 1 ∧
  (s.pipe ++ [some q]).head? = some t.resp ∧ (s.pipe ++ [some q]).tail = t.pipe

/-- R27, R200, R204 to R206: the responses the block can give. At most one flag is set; with any flag set the triple outputs
are 0; with a fault the result is 0 too; OVERFLOW comes with a biased exponent of 255 and UNDERFLOW with one of 0; a nonzero
result and a nonzero triple never stand together. -/
def Response.legal (q : Response) : Bool :=
  [0x00#6, 0x01#6, 0x02#6, 0x04#6, 0x08#6, 0x10#6, 0x20#6].contains q.flags
  && (q.flags == 0 || (!q.rSign && q.rExp == 0 && q.rMan == 0))
  && (!hasFault q.flags || q.r == 0)
  && (q.flags &&& 0x10#6 == 0 || biasedExp q.r == 255)
  && (q.flags &&& 0x20#6 == 0 || biasedExp q.r == 0)
  && (q.r == 0 || (!q.rSign && q.rExp == 0 && q.rMan == 0))

/-- The machine's invariant: the pipeline has `LATENCY` stages (R29), and every response in it and on the outputs is legal. -/
def State.Inv (s : State) : Prop :=
  s.pipe.length = s.params.latency ∧ (∀ q, some q ∈ s.pipe → Response.legal q = true) ∧
  ∀ q, s.resp = some q → Response.legal q = true

/-- The host drives `rst` = 0 and does not stop the clock. -/
def HostEvent.quiet : HostEvent → Bool
  | .cycle ports => !ports.rst
  | .clockStop => false

/-- What the host presents in a cycle, `none` where it presents nothing or stops the clock. -/
def HostEvent.accepted (params : Params) : HostEvent → Slot
  | .cycle ports => ports.accepted params
  | .clockStop => none

/-- `n` steps, or the first stop. -/
def stepN : Nat → State → Host.Outcome State Fault Refusal
  | 0, s => .next s
  | n + 1, s =>
    match step s with
    | .next t => stepN n t
    | .fault f => .fault f
    | .refused r => .refused r

/-- R13: the number a triple denotes, (-1)^s × m × 2^(e - 23). -/
def Triple.value (t : Triple) : ℚ := (if t.sign then -1 else 1) * (t.man : ℚ) * 2 ^ (t.exp - 23)

end Sys2Proof.Machine
end

