-- ==== Sys2Proof/Certificates/Slice0/Obligations.lean ====
section
/-! DEFINITION. The statements about the model. Each docstring names the rules of spec/ it states; "derived" marks one that
follows from the cited sections without being a rule's own words. -/

open Sys2Proof Sys2Proof.Machine Sys2Proof.Config

/-! ### Encoding -/

/-- Derived: request words of 95_test_vectors.md section 2 decode to the operations they stand for. -/
def Obligations.SpecWordsDecode : Prop :=
  decodeNumber 0x03DAE147B3F800000 = .ok (.fadd 0x3F800000 0x3DAE147B) ∧
  decodeNumber 0x13DAE147B3F8AE148 = .ok (.fsub 0x3F8AE148 0x3DAE147B) ∧
  decodeNumber 0xAFFFFFFFF3DAE147B = .ok (.decompose 0x3DAE147B) ∧
  decodeNumber 0x300AE147BFFFFFFFC = .ok (.pack false (-4) 0x00AE147B) ∧
  decodeNumber 0xB00400000FFFFFF81 = .ok (.pack true (-127) 0x00400000) ∧
  decodeNumber 0x4FFFFFFFF12345678 = .ok (.shiftRound 0x12345678 4294967295) ∧
  decodeNumber 0x53F8000003F800000 = .error (.reservedOp 0b101)

/-- Derived (R62 to R65): no bit of an operand is lost between an instruction and its request word. -/
def Obligations.DecodeAfterEncode : Prop :=
  ∀ i : Instr, WellFormed i → decode (encode i) = .ok i

/-- Derived (R62 to R66): the decoded instruction is well formed, and its request word agrees with the decoded one on `op` and
on every operand the operation reads. -/
def Obligations.EncodeAfterDecode : Prop :=
  ∀ (w : BitVec 68) (i : Instr), decode w = .ok i →
    WellFormed i ∧
    (Request.ofWord (encode i)).op = (Request.ofWord w).op ∧
    (Request.ofWord (encode i)).a = (Request.ofWord w).a ∧
    ((Request.ofWord w).op ≠ 0b010#3 → (Request.ofWord (encode i)).b = (Request.ofWord w).b) ∧
    ((Request.ofWord w).op = 0b011#3 → (Request.ofWord (encode i)).sIn = (Request.ofWord w).sIn)

/-- R62: the layout of the request word, and that it and the ports carry the same. -/
def Obligations.RequestWordLayout : Prop :=
  (∀ q : Request, q.toWord.toNat =
    (q.sIn.toNat <<< 67) ||| (q.op.toNat <<< 64) ||| (q.b.toNat <<< 32) ||| q.a.toNat) ∧
  (∀ q : Request, Request.ofWord q.toWord = q) ∧
  (∀ w : BitVec 68, (Request.ofWord w).toWord = w)

/-- R69: the layout of the response word, and that it and the ports carry the same. -/
def Obligations.ResponseWordLayout : Prop :=
  (∀ q : Response, q.toWord.toNat =
    (q.flags.toNat <<< 97) ||| (q.rSign.toNat <<< 96) ||| (q.rExp.toNat <<< 64) ||| (q.rMan.toNat <<< 32) ||| q.r.toNat) ∧
  (∀ q : Response, Response.ofWord q.toWord = q) ∧
  (∀ w : BitVec 103, (Response.ofWord w).toWord = w)

/-- R67, R201: a request with a reserved `op` is answered with ILLEGAL_OP, whatever its other fields. -/
def Obligations.ReservedOpGivesIllegalOp : Prop :=
  ∀ (s : State) (q : Request), (q.op = 0b101#3 ∨ q.op = 0b110#3 ∨ q.op = 0b111#3) →
    ∃ t, step (s.present q) = .next t ∧ Answered { s with inputs := s.inputs.tail } t (bareResponse 0x01 0)

/-- R66: two requests that agree on `op` and on the operands R64 gives the operation have the same effect. -/
def Obligations.IgnoredInputsHaveNoEffect : Prop :=
  ∀ (s : State) (q q' : Request), q.op = q'.op →
    (q.op.toNat < 5 → q.a = q'.a) →
    (q.op.toNat < 5 → q.op ≠ 0b010#3 → q.b = q'.b) →
    (q.op = 0b011#3 → q.sIn = q'.sIn) →
    step (s.present q) = step (s.present q')

/-! ### Steps -/

/-- Derived (R26, R50, R63, R230): in a cycle in which the ports carry a request that decodes to `i`, and no reset is taken
(`rst` = 0, or the block has no `rst`), the step is `exec i` on the state with that input taken. -/
def Obligations.StepRunsDecodedRequest : Prop :=
  ∀ (s : State) (ports : InPorts) (rest : List HostEvent) (i : Instr),
    s.inputs = .cycle ports :: rest → ports.reqValid = true →
    (ports.rst = false ∨ s.params.latency = 0) → decodeRequest ports.req = .ok i →
    step s = exec i { s with inputs := rest }

/-- Derived (R62, R63; log entry 10): the word the host's tools present is the one the next step runs. -/
def Obligations.FetchWordRunsNext : Prop :=
  ∀ (s : State) (nbits w : Nat) (i : Instr), decodeTableWord nbits w = some i →
    step (s.withFetchWord nbits w) = exec i { s with inputs := s.inputs.tail }

/-- Derived (R46, R50): a presented request is answered with the response of its operation, or with ILLEGAL_OP. -/
def Obligations.PresentedRequestIsAnswered : Prop :=
  ∀ (s : State) (q : Request),
    ∃ t, step (s.present q) = .next t ∧
      Answered { s with inputs := s.inputs.tail } t (respondRequest s.params q)

/-- Derived (R20, R208, R211): every operation is answered in every state, by a response that is legal and depends on the
operation and the build's parameters only; `Answered` is its frame. -/
def Obligations.EveryOperationAnswers : Prop :=
  ∀ (params : Params) (i : Instr), ∃ q, Response.legal q = true ∧
    ∀ s : State, s.params = params → ∃ t, exec i s = .next t ∧ Answered s t q

/-! ### DECOMPOSE and PACK -/

/-- R101, R106: DECOMPOSE gives sign bit, biased exponent minus 127 in two's complement, and the fraction with bit 23 set unless
the low 31 bits are zero; or UNSUPPORTED for a special pattern under REJECT. -/
def Obligations.DecomposeResponse : Prop :=
  ∀ (p : Word) (s : State),
    let special := (p >>> 23) &&& 0xFF = 255 ∨ ((p >>> 23) &&& 0xFF = 0 ∧ p &&& 0x7FFFFF ≠ 0)
    (¬ (s.params.specialInput = .reject ∧ special) →
      ∃ t, exec (.decompose p) s = .next t ∧ Answered s t
        { flags := 0
          rSign := p.getLsbD 31
          rExp  := ((p >>> 23) &&& 0xFF) - 127
          rMan  := if p &&& 0x7FFFFFFF = 0 then 0 else (p &&& 0x7FFFFF) ||| 0x800000
          r     := 0 }) ∧
    (s.params.specialInput = .reject ∧ special →
      ∃ t, exec (.decompose p) s = .next t ∧ Answered s t (bareResponse 0x02 0))

/-- R103: the ranges of a decomposed triple. -/
def Obligations.DecomposedTripleRange : Prop :=
  (∀ p : Word, -127 ≤ (decompose p).exp ∧ (decompose p).exp ≤ 128 ∧
    ((decompose p).man = 0 ↔ p &&& 0x7FFFFFFF = 0) ∧
    ((decompose p).man = 0 → (decompose p).exp = -127) ∧
    ((decompose p).man ≠ 0 → 0x800000 ≤ (decompose p).man ∧ (decompose p).man ≤ 0xFFFFFF)) ∧
  (∀ (p : Word) (t : Triple), checkedDecompose .reject p = .ok t → t.man ≠ 0 → -126 ≤ t.exp ∧ t.exp ≤ 127)

/-- R104, R107: PACK puts the sign in bit 31, the exponent plus 127 in bits 30..23 and the low 23 bits of the mantissa in bits
22..0, without status flags; for an exponent outside [-127, 128] it raises PACK_RANGE. -/
def Obligations.PackResponse : Prop :=
  ∀ (sg : Bool) (e : Int) (m : Word) (s : State),
    (-127 ≤ e ∧ e ≤ 128 →
      ∃ t r, exec (.pack sg e m) s = .next t ∧ Answered s t (bareResponse 0 r) ∧
        r.getLsbD 31 = sg ∧ ((r.extractLsb' 23 8).toNat : Int) = e + 127 ∧
        r.extractLsb' 0 23 = m.extractLsb' 0 23) ∧
    (e < -127 ∨ 128 < e →
      ∃ t, exec (.pack sg e m) s = .next t ∧ Answered s t (bareResponse 0x08 0))

/-- R108: for every pattern of every class, `pack(decompose(P))` = P, and DECOMPOSE (under RAW, or of a pattern that is not
special) followed by PACK of its outputs gives P back. -/
def Obligations.PackUndoesDecompose : Prop :=
  ∀ p : Word,
    pack (decompose p).sign (decompose p).exp (decompose p).man = .ok p ∧
    ∀ s : State, (s.params.specialInput = .raw ∨ isSpecial p = false) →
      ∃ t q u, exec (.decompose p) s = .next t ∧ Answered s t q ∧
        exec (.pack q.rSign q.rExp.toInt q.rMan) t = .next u ∧ Answered t u (bareResponse 0 p)

/-- Derived (R101, R104): PACK of a normalized triple with the exponent of a normal pattern, then DECOMPOSE, gives the triple
back. -/
def Obligations.DecomposeUndoesPack : Prop :=
  ∀ (sg : Bool) (e : Int) (m : Word) (s : State), -126 ≤ e → e ≤ 127 → 0x800000 ≤ m.toNat → m.toNat ≤ 0xFFFFFF →
    ∃ t r u, exec (.pack sg e m) s = .next t ∧ Answered s t (bareResponse 0 r) ∧
      exec (.decompose r) t = .next u ∧
      Answered t u { flags := 0, rSign := sg, rExp := BitVec.ofInt 32 e, rMan := m, r := 0 }

/-! ### SHIFT_ROUND and the rounding shifter -/

/-- R122, R125, R126: SHIFT_ROUND by n ≤ 23 gives the integer nearest to m / 2^n, the even one when m / 2^n is halfway between
two, and m itself for n = 0; a count above 23 raises SHIFT_RANGE. -/
def Obligations.ShiftRoundToNearestEven : Prop :=
  ∀ (m : Word) (n : Nat) (s : State),
    (n ≤ 23 → ∃ t r, exec (.shiftRound m n) s = .next t ∧ Answered s t (bareResponse 0 r) ∧
      2 * (r.toNat * 2 ^ n) ≤ 2 * m.toNat + 2 ^ n ∧ 2 * m.toNat ≤ 2 * (r.toNat * 2 ^ n) + 2 ^ n ∧
      ((∃ k, 2 * m.toNat = (2 * k + 1) * 2 ^ n) → r.toNat % 2 = 0) ∧ (n = 0 → r = m)) ∧
    (23 < n → ∃ t, exec (.shiftRound m n) s = .next t ∧ Answered s t (bareResponse 0x04 0))

/-- R124: the result range of the shifter. -/
def Obligations.ShifterResultRange : Prop :=
  ∀ m n : Nat, 1 ≤ n → n ≤ 23 →
    (∀ k, n ≤ k → m < 2 ^ k → srr m n ≤ 2 ^ (k - n)) ∧
    (m < 2 ^ 24 → srr m n ≤ 0x800000) ∧
    (m < 2 ^ 32 → srr m n ≤ 2 ^ 31)

/-! ### Alignment, combination, renormalization -/

/-- R142: for d ≥ 24 the ROUND policy gives what the shifter's formula gives in unbounded arithmetic, which is 1 exactly for
d = 24 and m > 0x800000 and else 0; FLUSH gives 0. -/
def Obligations.FarAlignment : Prop :=
  ∀ m d : Nat, (m = 0 ∨ (0x800000 ≤ m ∧ m ≤ 0xFFFFFF)) → 24 ≤ d →
    shiftAlign .round m d = srr m d ∧
    (shiftAlign .round m d = 1 ↔ d = 24 ∧ 0x800000 < m) ∧
    (shiftAlign .round m d = 0 ↔ ¬ (d = 24 ∧ 0x800000 < m)) ∧
    shiftAlign .flush m d = 0

/-- R141: alignment shifts the operand with the smaller exponent by exactly the exponent difference `d`, to the larger exponent,
and leaves the other as it is. For `d` ≤ 23, under either policy, the shift is the rounding shifter's: the aligned mantissa is
the integer nearest to m / 2^d, the even one when m / 2^d is halfway between two. -/
def Obligations.AlignmentShiftsByExponentDifference : Prop :=
  (∀ (pol : AlignFarPolicy) (ex : Int) (mx : Nat) (ey : Int) (my : Nat),
    (align pol ex mx ey my).exp = max ex ey ∧
    (∀ d : Nat, ey + d = ex → (align pol ex mx ey my).ma = mx ∧ (align pol ex mx ey my).mb = shiftAlign pol my d) ∧
    (∀ d : Nat, ex + d = ey → (align pol ex mx ey my).ma = shiftAlign pol mx d ∧ (align pol ex mx ey my).mb = my)) ∧
  (∀ (pol : AlignFarPolicy) (m d : Nat), d ≤ 23 →
    shiftAlign pol m d = srr m d ∧
    2 * (shiftAlign pol m d * 2 ^ d) ≤ 2 * m + 2 ^ d ∧ 2 * m ≤ 2 * (shiftAlign pol m d * 2 ^ d) + 2 ^ d ∧
    ((∃ k, 2 * m = (2 * k + 1) * 2 ^ d) → shiftAlign pol m d % 2 = 0) ∧ (d = 0 → shiftAlign pol m d = m)) ∧
  (∀ (pol : AlignFarPolicy) (m d : Nat), 24 ≤ d → shiftAlign pol m d = farAlign pol m d)

/-- R143: the ranges after alignment of two decomposed patterns, with the larger exponent on the left or on the right. The
operand with the larger exponent is never 0 then (a zero has the least exponent, R103), so the other's mantissa never
exceeds it; the two can be equal. -/
def Obligations.AlignedMantissaRanges : Prop :=
  (∀ (pol : AlignFarPolicy) (x y : Word),
    let tx := decompose x
    let ty := decompose y
    let al := align pol tx.exp tx.man ty.exp ty.man
    al.exp = max tx.exp ty.exp ∧
    (tx.exp = ty.exp → al.ma = tx.man ∧ al.mb = ty.man) ∧
    (ty.exp < tx.exp → al.ma = tx.man ∧ al.mb ≤ 0x800000 ∧ al.mb ≤ al.ma) ∧
    (tx.exp < ty.exp → al.mb = ty.man ∧ al.ma ≤ 0x800000 ∧ al.ma ≤ al.mb)) ∧
  (∀ pol : AlignFarPolicy, align pol 0 0x800000 (-1) 0xFFFFFF = ⟨0, 0x800000, 0x800000⟩)

/-- R144, R145: combination is addition of signed magnitudes; equal signs give the common sign, differing signs the sign of the
larger mantissa, the right-hand one's on a tie. -/
def Obligations.CombineAddsSignedMagnitudes : Prop :=
  ∀ (sx sy : Bool) (ma mb : Nat),
    (if (combine sx ma sy mb).1 then -((combine sx ma sy mb).2 : Int) else (combine sx ma sy mb).2) =
      (if sx then -(ma : Int) else ma) + (if sy then -(mb : Int) else mb) ∧
    (sx = sy → (combine sx ma sy mb).1 = sx) ∧
    (sx ≠ sy → ma > mb → (combine sx ma sy mb).1 = sx) ∧
    (sx ≠ sy → ma ≤ mb → (combine sx ma sy mb).1 = sy)

/-- R147: the range of the combined mantissa, and that the carry case and the cancellation down to 1 occur. -/
def Obligations.CombinedMantissaRange : Prop :=
  (∀ (pol : AlignFarPolicy) (x y : Word),
    (signBit x ≠ signBit y → (combined pol (decompose x) (decompose y)).man ≤ 0xFFFFFF) ∧
    (signBit x = signBit y → (combined pol (decompose x) (decompose y)).man ≤ 0x1FFFFFE)) ∧
  (∀ pol, ∃ x y, signBit x = signBit y ∧ 2 ^ 24 ≤ (combined pol (decompose x) (decompose y)).man) ∧
  (∀ pol, ∃ x y, signBit x ≠ signBit y ∧ (combined pol (decompose x) (decompose y)).man = 1)

/-- R161: one right shift brings a carried mantissa back to 24 bits, and the exponent goes up by 1. -/
def Obligations.RenormOverflowShiftsOnce : Prop :=
  ∀ t : Triple, 0x1000000 ≤ t.man → t.man ≤ 0x1FFFFFE →
    renorm t = ⟨t.sign, t.exp + 1, srr t.man 1⟩ ∧ 0x800000 ≤ (renorm t).man ∧ (renorm t).man ≤ 0xFFFFFF

/-- R162, R237: with k leading zeros of m within 24 bits, cancellation takes min(k, e + 127) left shifts, at most 23. -/
def Obligations.RenormCancellationShifts : Prop :=
  ∀ (t : Triple) (k : Nat), 0 < t.man → t.man < 0x800000 → -127 ≤ t.exp →
    2 ^ (23 - k) ≤ t.man → t.man < 2 ^ (24 - k) → k ≤ 23 →
    let j := min k (t.exp + 127).toNat
    renorm t = ⟨t.sign, t.exp - j, t.man * 2 ^ j⟩ ∧ -127 ≤ (renorm t).exp ∧ j ≤ 23

/-- R163, R164: a zero mantissa gives (0, -127, 0); a normalized triple passes through unchanged. -/
def Obligations.RenormZeroAndNormalized : Prop :=
  ∀ t : Triple, (t.man = 0 → renorm t = ⟨false, -127, 0⟩) ∧
    (0x800000 ≤ t.man → t.man ≤ 0xFFFFFF → renorm t = t)

/-- Derived (R165): the classes of a renormalized sum, and where exponents 128 and 129 come from. -/
def Obligations.RenormResultClasses : Prop :=
  ∀ (params : Params) (x y : Word) (tx ty : Triple),
    checkedDecompose params.specialInput x = .ok tx → checkedDecompose params.specialInput y = .ok ty →
    let c := combined params.alignFar tx ty
    let n := renorm c
    (n = ⟨false, -127, 0⟩ ∨
      (0x800000 ≤ n.man ∧ n.man ≤ 0xFFFFFF ∧ -127 ≤ n.exp ∧ n.exp ≤ 129 ∧
        (params.specialInput = .reject → n.exp ≤ 128)) ∨
      (0 < n.man ∧ n.man < 0x800000 ∧ n.exp = -127)) ∧
    (params.specialInput = .reject → n.exp = 128 → c.exp = 127 ∧ tx.sign = ty.sign ∧ 0x1000000 ≤ c.man) ∧
    (n.exp = 129 → c.exp = 128 ∧ 0x1000000 ≤ c.man)

/-! ### FADD and FSUB -/

/-- R166 to R168, R180: the response to FADD, from the renormalized triple of the two operands. -/
def Obligations.FaddResponse : Prop :=
  ∀ (x y : Word) (s : State),
    let n := renorm (combined s.params.alignFar (decompose x) (decompose y))
    let rejected := s.params.specialInput = .reject ∧ (isSpecial x = true ∨ isSpecial y = true)
    (rejected → ∃ t, exec (.fadd x y) s = .next t ∧ Answered s t (bareResponse 0x02 0)) ∧
    (¬ rejected → 128 < n.exp → ∃ t, exec (.fadd x y) s = .next t ∧ Answered s t (bareResponse 0x08 0)) ∧
    (¬ rejected → n.man ≠ 0 → n.exp = -127 → s.params.underflow = .flush →
      ∃ t, exec (.fadd x y) s = .next t ∧ Answered s t (bareResponse 0x20 0)) ∧
    (¬ rejected → n.exp ≤ 128 → ¬ (n.man ≠ 0 ∧ n.exp = -127 ∧ s.params.underflow = .flush) →
      ∃ t r, exec (.fadd x y) s = .next t ∧
        Answered s t (bareResponse (if n.exp = 128 then 0x10 else if n.man ≠ 0 ∧ n.exp = -127 then 0x20 else 0) r) ∧
        signBit r = n.sign ∧ (biasedExp r : Int) = n.exp + 127 ∧ fraction r = n.man % 2 ^ 23)

/-- R182, R186: FSUB of x and y has the next state of FADD of x and y with bit 31 flipped, and always has one. -/
def Obligations.FsubIsFaddOfFlipped : Prop :=
  ∀ (x y : Word) (s : State),
    exec (.fsub x y) s = exec (.fadd x (y ^^^ 0x80000000#32)) s ∧
    ∃ t, exec (.fsub x y) s = .next t ∧ Answered s t (respondFadd s.params x (y ^^^ 0x80000000#32))

/-- R183: FADD is commutative for all patterns and all parameters. -/
def Obligations.FaddCommutes : Prop :=
  ∀ (x y : Word) (s : State), exec (.fadd x y) s = exec (.fadd y x) s

/-- R184: for a normal x, x + (+0) and x + (-0) are x, with no flag, under every choice of parameters. -/
def Obligations.ZeroIsFaddIdentity : Prop :=
  ∀ (x z : Word) (s : State), isNormal x = true → (z = 0x00000000 ∨ z = 0x80000000) →
    ∃ t, exec (.fadd x z) s = .next t ∧ Answered s t (bareResponse 0 x)

/-- R185: a combined mantissa of 0 gives 0x00000000 whatever the signs; under FLUSH neither operation ever returns 0x80000000;
under AS_IS both can. -/
def Obligations.NoNegativeZero : Prop :=
  (∀ (x y : Word) (s : State), (s.params.specialInput = .raw ∨ (isSpecial x = false ∧ isSpecial y = false)) →
    ((combined s.params.alignFar (decompose x) (decompose y)).man = 0 →
      ∃ t, exec (.fadd x y) s = .next t ∧ Answered s t (bareResponse 0 0)) ∧
    ((combined s.params.alignFar (decompose x) (decompose (flipSign y))).man = 0 →
      ∃ t, exec (.fsub x y) s = .next t ∧ Answered s t (bareResponse 0 0))) ∧
  (∀ (params : Params) (x y : Word), params.underflow = .flush →
    (respond params (.fadd x y)).r ≠ 0x80000000 ∧ (respond params (.fsub x y)).r ≠ 0x80000000) ∧
  (∀ params : Params, params.underflow = .asIs →
    (∃ x y, (respond params (.fadd x y)).r = 0x80000000) ∧ ∃ x y, (respond params (.fsub x y)).r = 0x80000000)

/-- R187: for a normal or zero x, x - x and x + (-x) are 0x00000000 with no flag. -/
def Obligations.SelfCancellation : Prop :=
  ∀ (x : Word) (s : State), (isNormal x = true ∨ isTrueZero x = true) →
    (∃ t, exec (.fsub x x) s = .next t ∧ Answered s t (bareResponse 0 0)) ∧
    (∃ t, exec (.fadd x (x ^^^ 0x80000000#32)) s = .next t ∧ Answered s t (bareResponse 0 0))

/-- R188: the classes of a FADD or FSUB response under the default policies, for every latency. -/
def Obligations.DefaultResultClasses : Prop :=
  ∀ (x y : Word) (s : State) (i : Instr), s.params.specialInput = .reject → s.params.alignFar = .round →
    s.params.underflow = .flush → (i = .fadd x y ∨ i = .fsub x y) →
    ∃ t f r, exec i s = .next t ∧ Answered s t (bareResponse f r) ∧
      ((f = 0x02 ∧ r = 0) ∨ (f = 0 ∧ isNormal r = true) ∨ (f = 0 ∧ r = 0) ∨ (f = 0x20 ∧ r = 0) ∨
        (f = 0x10 ∧ biasedExp r = 255)) ∧
      isSubnormalKind r = false ∧ r ≠ 0x80000000

/-- Derived (R189): the block's results for the operands R189 lists. -/
def Obligations.ResultsForListedOperands : Prop :=
  respond Params.default (.fsub 0x3F800000 0x3DAE147B) = bareResponse 0 0x3F6A3D70 ∧
  respond Params.default (.fadd 0x3F800001 0x3F000001) = bareResponse 0 0x3FC00001 ∧
  respond Params.default (.fadd 0x3FC00001 0x3F000003) = bareResponse 0 0x40000002 ∧
  respond Params.default (.fadd 0x3F800000 0xBF7FFFFF) = bareResponse 0 0x00000000 ∧
  respond Params.default (.fadd 0x3F800000 0xB3800000) = bareResponse 0 0x3F800000 ∧
  respond Params.default (.fadd 0x80000000 0x80000000) = bareResponse 0 0x00000000 ∧
  respond Params.default (.fadd 0x7F7FFFFF 0x7F7FFFFF) = bareResponse 0x10 0x7FFFFFFF ∧
  respond Params.default (.fadd 0x00C00000 0x80800000) = bareResponse 0x20 0x00000000

/-- Derived (R13, R141, R145, R162, R163): with equal exponents and differing signs nothing is rounded, so a result that does not
underflow denotes the exact sum. -/
def Obligations.CancellationIsExact : Prop :=
  ∀ (x y : Word) (s : State), (s.params.specialInput = .raw ∨ (isSpecial x = false ∧ isSpecial y = false)) →
    biasedExp x = biasedExp y → signBit x ≠ signBit y →
    ∃ t f r, exec (.fadd x y) s = .next t ∧ Answered s t (bareResponse f r) ∧ hasFault f = false ∧
      (f &&& 0x20 = 0 → (decompose r).value = (decompose x).value + (decompose y).value)

/-- Derived (R145, R161, R166, R167): x + x keeps the sign and fraction of a normal x and raises the biased exponent by 1, with
OVERFLOW exactly when it becomes 255. -/
def Obligations.AddingToItselfDoubles : Prop :=
  ∀ (x : Word) (s : State), isNormal x = true →
    ∃ t f r, exec (.fadd x x) s = .next t ∧ Answered s t (bareResponse f r) ∧
      signBit r = signBit x ∧ biasedExp r = biasedExp x + 1 ∧ fraction r = fraction x ∧
      f = (if biasedExp x = 254 then 0x10 else 0)

/-- Derived (R182, R184): 0 - x is a normal x with bit 31 flipped, with no flag. -/
def Obligations.SubtractingFromZeroFlipsSign : Prop :=
  ∀ (x z : Word) (s : State), isNormal x = true → (z = 0x00000000 ∨ z = 0x80000000) →
    ∃ t, exec (.fsub z x) s = .next t ∧ Answered s t (bareResponse 0 (x ^^^ 0x80000000#32))

/-! ### Faults and status flags -/

/-- R202: UNSUPPORTED is raised exactly under REJECT, by DECOMPOSE for a special `a` and by FADD and FSUB for a special `a` or `b`;
a true zero is never special. -/
def Obligations.UnsupportedExactly : Prop :=
  (∀ (params : Params) (q : Request), (respondRequest params q).flags = 0x02 ↔
    params.specialInput = .reject ∧
      ((q.op = 0b010#3 ∧ isSpecial q.a = true) ∨
        ((q.op = 0b000#3 ∨ q.op = 0b001#3) ∧ (isSpecial q.a = true ∨ isSpecial q.b = true)))) ∧
  (∀ p : Word, isSpecial p = true ↔
    p.extractLsb' 23 8 = 255#8 ∨ (p.extractLsb' 23 8 = 0#8 ∧ p.extractLsb' 0 23 ≠ 0#23)) ∧
  (∀ p : Word, p.extractLsb' 0 31 = 0#31 → isSpecial p = false)

/-- R203: SHIFT_RANGE is raised exactly by SHIFT_ROUND with a count above 23; PACK_RANGE exactly by PACK with an exponent outside
[-127, 128], and by FADD and FSUB under RAW when the renormalized exponent is 129. -/
def Obligations.RangeFaultsExactly : Prop :=
  ∀ (params : Params) (q : Request),
    ((respondRequest params q).flags = 0x04 ↔ q.op = 0b100#3 ∧ 23 < q.b.toNat) ∧
    ((respondRequest params q).flags = 0x08 ↔
      (q.op = 0b011#3 ∧ (q.a.toInt < -127 ∨ 128 < q.a.toInt)) ∨
      (q.op = 0b000#3 ∧ params.specialInput = .raw ∧
        (renorm (combined params.alignFar (decompose q.a) (decompose q.b))).exp = 129) ∨
      (q.op = 0b001#3 ∧ params.specialInput = .raw ∧
        (renorm (combined params.alignFar (decompose q.a) (decompose (q.b ^^^ 0x80000000#32)))).exp = 129))

/-- R204: a faulting request has a response like any other, in the same cycle, with one fault bit and all data outputs 0. -/
def Obligations.FaultingResponseOutputs : Prop :=
  ∀ (s : State) (q : Request), hasFault (respondRequest s.params q).flags = true →
    ∃ t f, step (s.present q) = .next t ∧ Answered { s with inputs := s.inputs.tail } t (bareResponse f 0) ∧
      (f = 0x01 ∨ f = 0x02 ∨ f = 0x04 ∨ f = 0x08)

/-- R205: at most one flag is set in any response; a reserved `op` wins over every other fault; two special operands set the one
UNSUPPORTED bit. -/
def Obligations.AtMostOneFlag : Prop :=
  ∀ (params : Params) (q : Request),
    ((respondRequest params q).flags = 0 ∨ (respondRequest params q).flags = 0x01 ∨
      (respondRequest params q).flags = 0x02 ∨ (respondRequest params q).flags = 0x04 ∨
      (respondRequest params q).flags = 0x08 ∨ (respondRequest params q).flags = 0x10 ∨
      (respondRequest params q).flags = 0x20) ∧
    ((respondRequest params q).flags = 0x01 ↔ 5 ≤ q.op.toNat) ∧
    (params.specialInput = .reject → (q.op = 0b000#3 ∨ q.op = 0b001#3) → isSpecial q.a = true → isSpecial q.b = true →
      (respondRequest params q).flags = 0x02)

/-- R206: OVERFLOW is set exactly by a FADD or FSUB that does not fault and whose renormalized exponent is 128, with a result of
biased exponent 255; UNDERFLOW exactly by one whose renormalized triple has m ≠ 0 and e = -127, with the result
UNDERFLOW_POLICY gives; an exact zero sum sets neither, and no other operation sets them. -/
def Obligations.StatusFlagsExactly : Prop :=
  (∀ (params : Params) (x y : Word),
    let n := renorm (combined params.alignFar (decompose x) (decompose y))
    let q := respond params (.fadd x y)
    (params.specialInput = .raw ∨ (isSpecial x = false ∧ isSpecial y = false)) →
    (q.flags &&& 0x10 ≠ 0 ↔ n.exp = 128) ∧
    (q.flags &&& 0x20 ≠ 0 ↔ n.man ≠ 0 ∧ n.exp = -127) ∧
    (n.man = 0 → q.flags = 0) ∧
    (q.flags &&& 0x10 ≠ 0 → biasedExp q.r = 255 ∧ signBit q.r = n.sign ∧ fraction q.r = n.man % 2 ^ 23) ∧
    (q.flags &&& 0x20 ≠ 0 → params.underflow = .flush → q.r = 0) ∧
    (q.flags &&& 0x20 ≠ 0 → params.underflow = .asIs →
      biasedExp q.r = 0 ∧ signBit q.r = n.sign ∧ fraction q.r = n.man % 2 ^ 23)) ∧
  (∀ (params : Params) (x y : Word), respond params (.fsub x y) = respond params (.fadd x (y ^^^ 0x80000000#32))) ∧
  (∀ (params : Params) (x y : Word), params.specialInput = .reject → (isSpecial x = true ∨ isSpecial y = true) →
    (respond params (.fadd x y)).flags &&& 0x30 = 0) ∧
  (∀ (params : Params) (p m : Word) (sg : Bool) (e : Int) (k : Nat),
    (respond params (.decompose p)).flags &&& 0x30 = 0 ∧ (respond params (.pack sg e m)).flags &&& 0x30 = 0 ∧
    (respond params (.shiftRound m k)).flags &&& 0x30 = 0)

/-! ### The machine -/

/-- R30: after reset every pipeline valid bit is 0, the parameters are those of the build, a cycle with `rst` = 1 does not
change them, and `resp_valid` (with LATENCY >= 1) is 0 until a request accepted after reset reaches the output; the block named
without parameters has the default policies of R9 (its latency is the model's choice, log entry 2, and is not stated). -/
def Obligations.ResetState : Prop :=
  (∀ p : Params, (State.resetWith p).params = p ∧ (State.resetWith p).pipe.length = p.latency ∧
    (∀ slot ∈ (State.resetWith p).pipe, slot = none) ∧
    (1 ≤ p.latency → (State.resetWith p).respValid = false)) ∧
  (∀ (s : State) (ports : InPorts) (rest : List HostEvent), s.inputs = .cycle ports :: rest → ports.rst = true →
    1 ≤ s.params.latency → ∃ t, step s = .next t ∧ t.params = s.params ∧ t.pipe = (State.resetWith s.params).pipe) ∧
  (∀ (p : Params) (evs : List HostEvent), 1 ≤ p.latency → evs ≠ [] → (∀ ev ∈ evs, ev.quiet = true) →
    (evs.length ≤ p.latency ∨ ∀ ev ∈ evs, ev.accepted p = none) →
    ∃ t, stepN evs.length { State.resetWith p with inputs := evs } = .next t ∧ t.respValid = false) ∧
  State.reset = State.resetWith State.reset.params ∧
  State.reset.params.specialInput = .reject ∧ State.reset.params.alignFar = .round ∧ State.reset.params.underflow = .flush

/-- Derived: the invariant holds at reset, for every build. -/
def Obligations.ResetMeetsInvariant : Prop :=
  State.reset.Inv ∧ ∀ p : Params, (State.resetWith p).Inv

/-- Derived (R29, R200, R204 to R206): every step keeps the pipeline at `LATENCY` stages and every response in it and on the
outputs legal. -/
def Obligations.StepKeepsInvariant : Prop :=
  ∀ s t : State, s.Inv → step s = .next t → t.Inv

/-- Derived (R9, R23, R30): no step, a reset among them, changes a parameter. That a step takes the first of the host's listed
inputs, where one is listed, and no other is the model's choice (DESIGN CHOICE, log entry 3). -/
def Obligations.StepKeepsParameters : Prop :=
  ∀ s t : State, step s = .next t → t.params = s.params ∧ t.inputs = s.inputs.tail

/-- R28, R47: over quiet cycles, what is presented in a cycle is the response due `LATENCY` cycles later, in order, one response
for one request and none where nothing was presented; in the first `LATENCY` cycles what the pipeline held is due. The ports
show what is due, from the first reset on (R233). No response depends on `LATENCY`. -/
def Obligations.ResponsesInOrderAfterLatency : Prop :=
  (∀ (p : Params) (l : Nat) (q : Request), respondRequest { p with latency := l } q = respondRequest p q) ∧
  ∀ (s : State) (evs rest : List HostEvent) (k : Nat), s.pipe.length = s.params.latency →
    s.inputs = evs ++ rest → (∀ ev ∈ evs, ev.quiet = true) → evs.length = k + 1 →
    ∃ t, stepN (k + 1) s = .next t ∧ t.inputs = rest ∧ t.params = s.params ∧
      (∀ ev, s.params.latency ≤ k → evs[k - s.params.latency]? = some ev → t.resp = ev.accepted s.params) ∧
      (k < s.params.latency → s.pipe[k]? = some t.resp) ∧
      (s.params.latency = 0 ∨ s.boot ≠ .powerUp →
        t.respValid = t.resp.isSome ∧ ∀ q, t.resp = some q → t.outputs = q)

/-- R231, R232: a cycle with `rst` = 1 delivers the response due in it and clears every valid bit; nothing pending and nothing
presented in it is ever answered, so the next `LATENCY` cycles have `resp_valid` = 0; a request presented in the cycle after it is answered `LATENCY` cycles
later; a second such cycle changes no more. -/
def Obligations.ResetDiscardsPending : Prop :=
  ∀ (s : State) (ports : InPorts) (evs rest : List HostEvent), s.pipe.length = s.params.latency →
    1 ≤ s.params.latency → ports.rst = true → s.inputs = .cycle ports :: (evs ++ rest) →
    (∃ t, step s = .next t ∧ s.pipe.head? = some t.resp ∧
      (s.boot ≠ .powerUp → t.respValid = t.resp.isSome ∧ ∀ q, t.resp = some q → t.outputs = q) ∧ t.pipe = List.replicate s.params.latency none ∧
      t.params = s.params ∧ t.inputs = evs ++ rest) ∧
    ((∀ ev ∈ evs, ev.quiet = true) → evs ≠ [] → evs.length ≤ s.params.latency →
      ∃ t, stepN (evs.length + 1) s = .next t ∧ t.respValid = false) ∧
    (∀ (q : Request) (evs' : List HostEvent), evs = .cycle (InPorts.present q) :: evs' → evs'.length = s.params.latency →
      (∀ ev ∈ evs', ev.quiet = true) →
      ∃ t, stepN (s.params.latency + 2) s = .next t ∧ t.respValid = true ∧ t.outputs = respondRequest s.params q) ∧
    (∀ ports' : InPorts, evs = [.cycle ports'] → ports'.rst = true →
      ∃ t, stepN 2 s = .next t ∧ t.respValid = false ∧ t.pipe = List.replicate s.params.latency none ∧
        t.params = s.params)

/-- R46: two blocks built alike give a request the same response, whatever each holds from before and whatever else the
host presents after it; where both have been reset, or have no reset, their ports show it. -/
def Obligations.ResponseIndependentOfOtherRequests : Prop :=
  ∀ (s₁ s₂ : State) (q : Request) (evs₁ evs₂ rest₁ rest₂ : List HostEvent), s₁.params = s₂.params →
    s₁.pipe.length = s₁.params.latency → s₂.pipe.length = s₂.params.latency →
    s₁.inputs = .cycle (InPorts.present q) :: (evs₁ ++ rest₁) → s₂.inputs = .cycle (InPorts.present q) :: (evs₂ ++ rest₂) →
    evs₁.length = s₁.params.latency → evs₂.length = s₂.params.latency →
    (∀ ev ∈ evs₁, ev.quiet = true) → (∀ ev ∈ evs₂, ev.quiet = true) →
    ∃ t₁ t₂, stepN (s₁.params.latency + 1) s₁ = .next t₁ ∧ stepN (s₂.params.latency + 1) s₂ = .next t₂ ∧
      t₁.resp = t₂.resp ∧ t₁.resp = some (respondRequest s₁.params q) ∧
      (s₁.params.latency = 0 ∨ (s₁.boot ≠ .powerUp ∧ s₂.boot ≠ .powerUp) →
        t₁.respValid = true ∧ t₂.respValid = true ∧ t₁.outputs = t₂.outputs)

/-- R235: a sequence of requests, one in every cycle that presents one, has the same responses in builds that differ in
`LATENCY` only, each exactly `LATENCY` cycles after its request. -/
def Obligations.LatencyDoesNotChangeResults : Prop :=
  ∀ (p₁ p₂ : Params) (evs pad₁ pad₂ : List HostEvent) (k : Nat), p₁ = { p₂ with latency := p₁.latency } →
    (∀ ev ∈ evs, ev.quiet = true) → (∀ ev ∈ pad₁, ev.quiet = true) → (∀ ev ∈ pad₂, ev.quiet = true) →
    pad₁.length = p₁.latency → pad₂.length = p₂.latency → k < evs.length →
    ∃ t₁ t₂, stepN (k + 1 + p₁.latency) { State.resetWith p₁ with inputs := evs ++ pad₁ } = .next t₁ ∧
      stepN (k + 1 + p₂.latency) { State.resetWith p₂ with inputs := evs ++ pad₂ } = .next t₂ ∧ t₁.resp = t₂.resp ∧
      t₁.respValid = t₂.respValid ∧
      ∀ ports, evs[k]? = some (.cycle ports) → ports.reqValid = true →
        t₂.respValid = true ∧ t₁.outputs = t₂.outputs ∧ t₂.outputs = respondRequest p₂ ports.req

/-- Derived (R208, R216, U13): no fault stops the block; a step answers a next state unless the host stops the clock of a
pipelined block. -/
def Obligations.OnlyClockStopRefuses : Prop :=
  ∀ s : State, (∃ t, step s = .next t) ∨
    (step s = .refused .clockStopped ∧ 1 ≤ s.params.latency ∧ s.inputs.head? = some .clockStop)

/-- Derived (R216, U13; log entry 8): a stopped clock is refused for LATENCY >= 1 and changes nothing for LATENCY = 0. -/
def Obligations.ClockStop : Prop :=
  ∀ (s : State) (rest : List HostEvent), s.inputs = .clockStop :: rest →
    (1 ≤ s.params.latency → step s = .refused .clockStopped) ∧
    (s.params.latency = 0 → step s = .next { s with inputs := rest })

/-- R230: with LATENCY = 0 there is no reset: `resp_valid` = `req_valid` and the outputs are the response of the same cycle's
request, whatever `rst` is. -/
def Obligations.CombinationalAtLatencyZero : Prop :=
  ∀ (s : State) (ports : InPorts) (rest : List HostEvent), s.params.latency = 0 → s.pipe = [] →
    s.inputs = .cycle ports :: rest →
    ∃ t, step s = .next t ∧ t.pipe = [] ∧ t.inputs = rest ∧ t.respValid = ports.reqValid ∧
      (ports.reqValid = true → t.outputs = respondRequest s.params ports.req)

/-- Derived (R231, R233; log entry 6): from power-up, whatever the stages hold, one cycle of `rst` = 1 leaves no response pending,
and from the next cycle on `resp_valid` is 0 until a request presented after that cycle reaches the output. -/
def Obligations.PowerUpResetClearsPipeline : Prop :=
  ∀ (p : Params) (ports : InPorts) (evs rest : List HostEvent), 1 ≤ p.latency → ports.rst = true →
    (∃ t, step { State.powerUp p with inputs := .cycle ports :: rest } = .next t ∧ t.params = p ∧ t.inputs = rest ∧
      t.pipe = (State.resetWith p).pipe ∧ t.boot ≠ .powerUp) ∧
    (evs ≠ [] → (∀ ev ∈ evs, ev.quiet = true) → (evs.length ≤ p.latency ∨ ∀ ev ∈ evs, ev.accepted p = none) →
      ∃ t, stepN (evs.length + 1) { State.powerUp p with inputs := .cycle ports :: evs } = .next t ∧ t.respValid = false)

/-- Derived (R233, U10; log entry 6): from power-up until the first cycle with `rst` = 1, that cycle among them, `resp_valid` of a
block with LATENCY >= 1 is a free value in every cycle, whatever is in the stages; only such a cycle ends the power-up, and
no step returns to it. -/
def Obligations.RespValidIsFreeUntilReset : Prop :=
  (∀ (s : State) (evs rest : List HostEvent), s.boot = .powerUp → 1 ≤ s.params.latency →
    s.inputs = evs ++ rest → (∀ ev ∈ evs, ev.quiet = true) →
    (∃ t, stepN evs.length s = .next t ∧ t.boot = .powerUp ∧ t.respValid = Config.powerUpRespValid t.cycle) ∧
    (∀ (ports : InPorts) (rest' : List HostEvent), rest = .cycle ports :: rest' → ports.rst = true →
      ∃ t, stepN (evs.length + 1) s = .next t ∧ t.boot = .firstReset ∧ t.respValid = Config.powerUpRespValid t.cycle)) ∧
  (∀ s t : State, step s = .next t → s.boot = .powerUp → t.boot ≠ .powerUp →
    1 ≤ s.params.latency ∧ ∃ ports rest, s.inputs = .cycle ports :: rest ∧ ports.rst = true) ∧
  (∀ s t : State, step s = .next t → s.boot ≠ .powerUp → t.boot ≠ .powerUp)
end

