-- ==== Sys2Proof/Laws/Codec.lean ====
section
/-! SUPPORT. The pattern fields and the bit codec in arithmetic form. -/

namespace Sys2Proof.Machine

/-- Bit 31 as a number. -/
theorem signBit_toNat (p : Word) : (signBit p).toNat = p.toNat / 2 ^ 31 := by
  have h := p.isLt
  simp only [signBit, BitVec.getLsbD, Nat.testBit, Nat.shiftRight_eq_div_pow, Nat.one_and_eq_mod_two]
  have : p.toNat / 2 ^ 31 < 2 := by omega
  generalize p.toNat / 2 ^ 31 = k at *
  interval_cases k <;> rfl

theorem biasedExp_eq (p : Word) : biasedExp p = p.toNat / 2 ^ 23 % 2 ^ 8 := by
  simp [biasedExp, BitVec.extractLsb'_toNat, Nat.shiftRight_eq_div_pow]

theorem fraction_eq (p : Word) : fraction p = p.toNat % 2 ^ 23 := by
  simp [fraction, BitVec.extractLsb'_toNat]

theorem biasedExp_lt (p : Word) : biasedExp p < 256 := by
  rw [biasedExp_eq]; omega

theorem fraction_lt (p : Word) : fraction p < 0x800000 := by
  rw [fraction_eq]; omega

/-- A pattern is its three fields (R60). -/
theorem pattern_toNat (p : Word) :
    p.toNat = (signBit p).toNat * 2 ^ 31 + biasedExp p * 2 ^ 23 + fraction p := by
  rw [signBit_toNat, biasedExp_eq, fraction_eq]
  have := p.isLt
  omega

/-- Patterns with the same fields are the same. -/
theorem pattern_ext {p q : Word} (hs : signBit p = signBit q) (he : biasedExp p = biasedExp q)
    (hf : fraction p = fraction q) : p = q := by
  apply BitVec.eq_of_toNat_eq
  rw [pattern_toNat p, pattern_toNat q, hs, he, hf]

theorem isTrueZero_iff (p : Word) : isTrueZero p = true ↔ biasedExp p = 0 ∧ fraction p = 0 := by
  rw [biasedExp_eq, fraction_eq]
  simp only [isTrueZero, beq_iff_eq, ← BitVec.toNat_inj, BitVec.extractLsb'_toNat, Nat.shiftRight_zero,
    BitVec.ofNat_eq_ofNat, BitVec.toNat_ofNat, Nat.zero_mod]
  have := p.isLt
  omega

theorem isSpecial_iff (p : Word) :
    isSpecial p = true ↔ biasedExp p = 255 ∨ (biasedExp p = 0 ∧ fraction p ≠ 0) := by
  simp [isSpecial, isAllOnesKind, isSubnormalKind]

theorem isNormal_iff (p : Word) : isNormal p = true ↔ 1 ≤ biasedExp p ∧ biasedExp p ≤ 254 := by
  simp [isNormal]

theorem isSpecial_of_isNormal {p : Word} (h : isNormal p = true) : isSpecial p = false := by
  rw [isNormal_iff] at h
  rw [Bool.eq_false_iff, Ne, isSpecial_iff]
  omega

theorem or_implicit_bit {f : Nat} (h : f < 0x800000) : f ||| 0x800000 = f + 0x800000 := by
  have h' : 8388608 + f = 8388608 ||| f := Nat.two_pow_add_eq_or_of_lt (i := 23) (b := f) (by simpa using h) 1
  rw [Nat.or_comm, ← h', Nat.add_comm]

@[simp] theorem decompose_sign (p : Word) : (decompose p).sign = signBit p := rfl
@[simp] theorem decompose_exp (p : Word) : (decompose p).exp = (biasedExp p : Int) - 127 := rfl

theorem decompose_man (p : Word) :
    (decompose p).man = if biasedExp p = 0 ∧ fraction p = 0 then 0 else fraction p + 0x800000 := by
  simp only [decompose, or_implicit_bit (fraction_lt p), isTrueZero_iff]

/-- R103, the part that holds of every pattern. -/
theorem decompose_range (p : Word) :
    -127 ≤ (decompose p).exp ∧ (decompose p).exp ≤ 128 ∧
    ((decompose p).man = 0 ∧ (decompose p).exp = -127 ∨
      0x800000 ≤ (decompose p).man ∧ (decompose p).man ≤ 0xFFFFFF) := by
  have h1 := biasedExp_lt p
  have h2 := fraction_lt p
  rw [decompose_man, decompose_exp]
  split <;> omega

/-- Everything `checkedDecompose` can answer (R102). -/
theorem checkedDecompose_ok {pol : Config.SpecialInputPolicy} {p : Word} {t : Triple} :
    checkedDecompose pol p = .ok t ↔ t = decompose p ∧ (pol = .raw ∨ isSpecial p = false) := by
  unfold checkedDecompose
  cases pol <;> cases h : isSpecial p <;> simp [eq_comm]

theorem checkedDecompose_error {pol : Config.SpecialInputPolicy} {p : Word} {k : FaultKind} :
    checkedDecompose pol p = .error k ↔ k = .unsupported ∧ pol = .reject ∧ isSpecial p = true := by
  unfold checkedDecompose
  cases pol <;> cases h : isSpecial p <;> simp [eq_comm]

theorem checkedDecompose_of_not_special {pol : Config.SpecialInputPolicy} {p : Word}
    (h : pol = .raw ∨ isSpecial p = false) : checkedDecompose pol p = .ok (decompose p) :=
  checkedDecompose_ok.mpr ⟨rfl, h⟩

/-- With REJECT, what passes the check has an exponent of a normal pattern unless it is zero (R103). -/
theorem decompose_exp_of_not_special {p : Word} (h : isSpecial p = false) :
    (decompose p).man = 0 ∨ (-126 ≤ (decompose p).exp ∧ (decompose p).exp ≤ 127) := by
  rw [Bool.eq_false_iff, Ne, isSpecial_iff] at h
  have h1 := biasedExp_lt p
  rw [decompose_man, decompose_exp]
  split <;> omega

/-- A word given by the value of its three fields has those fields. -/
theorem fields_of_toNat {r : Word} {s : Bool} {e f : Nat} (he : e < 256) (hf : f < 0x800000)
    (h : r.toNat = s.toNat * 2 ^ 31 + e * 2 ^ 23 + f) : signBit r = s ∧ biasedExp r = e ∧ fraction r = f := by
  have hs : s.toNat < 2 := by cases s <;> decide
  refine ⟨?_, ?_, ?_⟩
  · have : (signBit r).toNat = s.toNat := by rw [signBit_toNat, h]; omega
    revert this; cases signBit r <;> cases s <;> decide
  · rw [biasedExp_eq, h]; omega
  · rw [fraction_eq, h]; omega

theorem pack_value {s : Bool} {e : Nat} (m : Nat) (he : e < 256) :
    (s.toNat <<< 31) ||| (e <<< 23) ||| (m &&& 0x7FFFFF) = s.toNat * 2 ^ 31 + e * 2 ^ 23 + m % 0x800000 := by
  have hm : m &&& 0x7FFFFF = m % 0x800000 := Nat.and_two_pow_sub_one_eq_mod m 23
  have h1 := Nat.two_pow_add_eq_or_of_lt (i := 31) (b := e <<< 23)
    (by rw [Nat.shiftLeft_eq]; omega) s.toNat
  have h2 := Nat.two_pow_add_eq_or_of_lt (i := 23) (b := m % 0x800000) (by omega) (s.toNat * 2 ^ 8 + e)
  rw [hm]
  simp only [Nat.shiftLeft_eq] at *
  rw [show s.toNat * 2 ^ 31 = 2 ^ 31 * s.toNat by omega, ← h1,
    show 2 ^ 31 * s.toNat + e * 2 ^ 23 = 2 ^ 23 * (s.toNat * 2 ^ 8 + e) by omega, ← h2]

/-- R104: in range, `pack` gives the pattern with exactly these fields. -/
theorem pack_ok {s : Bool} {e : Int} (m : Nat) (h1 : -127 ≤ e) (h2 : e ≤ 128) :
    ∃ r, pack s e m = .ok r ∧ signBit r = s ∧ (biasedExp r : Int) = e + 127 ∧ fraction r = m % 0x800000 := by
  obtain ⟨k, hk⟩ : ∃ k : Nat, e + 127 = k := ⟨(e + 127).toNat, by omega⟩
  have hk' : k < 256 := by omega
  have hs : s.toNat < 2 := by cases s <;> decide
  have hr : pack s e m = .ok (BitVec.ofNat 32 (s.toNat * 2 ^ 31 + k * 2 ^ 23 + m % 0x800000)) := by
    unfold pack
    rw [if_neg (by omega), hk, Int.toNat_natCast, pack_value m hk']
  have hf := fields_of_toNat (s := s) (e := k) (f := m % 0x800000)
    (r := BitVec.ofNat 32 (s.toNat * 2 ^ 31 + k * 2 ^ 23 + m % 0x800000)) hk' (by omega)
    (by rw [BitVec.toNat_ofNat, Nat.mod_eq_of_lt (by omega)])
  exact ⟨_, hr, hf.1, by rw [hf.2.1, hk], hf.2.2⟩

/-- R105: out of range, `pack` raises PACK_RANGE. -/
theorem pack_error {s : Bool} {e : Int} (m : Nat) (h : e < -127 ∨ 128 < e) : pack s e m = .error .packRange := by
  unfold pack
  rw [if_pos (by omega)]

/-- `pack` of a pattern's own fields is that pattern. -/
theorem pack_fields {s : Bool} {e : Int} {m : Nat} {p : Word} (hs : signBit p = s)
    (he : (biasedExp p : Int) = e + 127) (hf : fraction p = m % 0x800000) : pack s e m = .ok p := by
  have := biasedExp_lt p
  obtain ⟨r, hr, h1, h2, h3⟩ := pack_ok (s := s) (e := e) m (by omega) (by omega)
  rw [hr, pattern_ext (p := r) (q := p) (by rw [h1, hs]) (by omega) (by rw [h3, hf])]

theorem flipSign_toNat (y : Word) : (flipSign y).toNat = (!signBit y).toNat * 2 ^ 31 + biasedExp y * 2 ^ 23 + fraction y := by
  have hy := pattern_toNat y
  have h1 := biasedExp_lt y
  have h2 := fraction_lt y
  have hx : (flipSign y).toNat = y.toNat ^^^ 2 ^ 31 := by simp [flipSign]
  have hl : biasedExp y * 2 ^ 23 + fraction y < 2 ^ 31 := by omega
  rw [hx]
  apply Nat.eq_of_testBit_eq
  intro i
  rw [Nat.testBit_xor, hy]
  have hlow : ∀ b : Bool, (b.toNat * 2 ^ 31 + biasedExp y * 2 ^ 23 + fraction y) =
      2 ^ 31 * b.toNat + (biasedExp y * 2 ^ 23 + fraction y) := by intro b; omega
  rw [hlow, hlow, Nat.testBit_two_pow_mul_add _ hl, Nat.testBit_two_pow_mul_add _ hl, Nat.testBit_two_pow]
  by_cases hi : i < 31
  · simp [hi, show ¬ 31 = i by omega]
  · by_cases h31 : 31 = i
    · subst h31; cases signBit y <;> rfl
    · have : i - 31 ≠ 0 := by omega
      obtain ⟨j, hj⟩ := Nat.exists_eq_succ_of_ne_zero this
      simp only [hi, h31, hj, if_false, decide_false, Bool.xor_false]
      cases signBit y <;> simp [Nat.testBit_succ]

@[simp] theorem signBit_flipSign (y : Word) : signBit (flipSign y) = !signBit y :=
  (fields_of_toNat (biasedExp_lt y) (fraction_lt y) (flipSign_toNat y)).1
@[simp] theorem biasedExp_flipSign (y : Word) : biasedExp (flipSign y) = biasedExp y :=
  (fields_of_toNat (biasedExp_lt y) (fraction_lt y) (flipSign_toNat y)).2.1
@[simp] theorem fraction_flipSign (y : Word) : fraction (flipSign y) = fraction y :=
  (fields_of_toNat (biasedExp_lt y) (fraction_lt y) (flipSign_toNat y)).2.2

/-- R181: the sign flip does not change a pattern's class. -/
@[simp] theorem isSpecial_flipSign (y : Word) : isSpecial (flipSign y) = isSpecial y := by
  simp [isSpecial, isAllOnesKind, isSubnormalKind]

end Sys2Proof.Machine
end

