-- ==== Sys2Proof/Laws/Rounding.lean ====
section
/-! SUPPORT. The rounding shifter in arithmetic form. -/

namespace Sys2Proof.Machine

theorem shiftedMask_and (m n : Nat) : m &&& shiftedMask n = m % 2 ^ n := by
  rw [shiftedMask, Nat.one_shiftLeft, Nat.and_two_pow_sub_one_eq_mod]

@[simp] theorem srr_zero_count (m : Nat) : srr m 0 = m := by simp [srr]

/-- Everything `srr` does for a positive count: the quotient, rounded by the remainder against half of 2^n. -/
theorem srr_succ (m n : Nat) :
    srr m (n + 1) = m / 2 ^ (n + 1) +
      (if 2 ^ n < m % 2 ^ (n + 1) ∨ m % 2 ^ (n + 1) = 2 ^ n ∧ m / 2 ^ (n + 1) % 2 = 1 then 1 else 0) := by
  simp only [srr, shiftedMask_and, halfwayMask, Nat.shiftRight_eq_div_pow, Nat.one_shiftLeft]
  simp only [Nat.add_sub_cancel, Nat.succ_ne_zero, if_false]
  split_ifs <;> simp_all
  omega

@[simp] theorem srr_zero (n : Nat) : srr 0 n = 0 := by
  cases n with
  | zero => simp
  | succ n => rw [srr_succ]; simp

/-- R124: the result of a shift by n is at most the bound shifted by n. -/
theorem srr_le {m n b : Nat} (h : m < 2 ^ (n + 1) * b) : srr m (n + 1) ≤ b := by
  have hq : m / 2 ^ (n + 1) < b := Nat.div_lt_of_lt_mul h
  rw [srr_succ]
  split <;> omega

/-- R125: the result is within one half of m / 2^n, and even where m / 2^n lies exactly halfway. -/
theorem srr_nearest (m n : Nat) :
    2 * (srr m n * 2 ^ n) ≤ 2 * m + 2 ^ n ∧ 2 * m ≤ 2 * (srr m n * 2 ^ n) + 2 ^ n ∧
    (2 * (m % 2 ^ n) = 2 ^ n → srr m n % 2 = 0) := by
  cases n with
  | zero => simp
  | succ n =>
    have hm := Nat.div_add_mod m (2 ^ (n + 1))
    have hp : 0 < 2 ^ n := Nat.two_pow_pos n
    have hlt := Nat.mod_lt m (Nat.two_pow_pos (n + 1))
    rw [srr_succ]
    rw [Nat.pow_succ] at *
    generalize 2 ^ n = a at *
    generalize m / (a * 2) = v at *
    generalize m % (a * 2) = w at *
    have h1 : (v + 1) * (a * 2) = a * 2 * v + a * 2 := by ring
    have h0 : (v + 0) * (a * 2) = a * 2 * v := by ring
    split_ifs <;> [rw [h1]; rw [h0]] <;> refine ⟨?_, ?_, ?_⟩ <;> omega

/-- R124 for a 24-bit mantissa and a count of 1 to 23. -/
theorem srr_le_implicit_bit {m n : Nat} (hm : m < 0x1000000) (h1 : 1 ≤ n) : srr m n ≤ 0x800000 := by
  obtain ⟨k, rfl⟩ := Nat.exists_eq_succ_of_ne_zero (by omega : n ≠ 0)
  apply srr_le
  have : 2 ^ 1 ≤ 2 ^ (k + 1) := Nat.pow_le_pow_right (by decide) (by omega)
  omega

end Sys2Proof.Machine
end

