-- ==== Sys2Proof/Laws/Add.lean ====
section
/-! SUPPORT. Alignment, combination, renormalization and the packing of a sum: what each can answer. -/

namespace Sys2Proof.Machine

open Sys2Proof.Config

/-- A mantissa as `decompose` gives it (R103): 0, or 24 bits with the top bit set. -/
def IsMantissa (m : Nat) : Prop := m = 0 ∨ (0x800000 ≤ m ∧ m ≤ 0xFFFFFF)

theorem decompose_isMantissa (p : Word) : IsMantissa (decompose p).man := by
  have := decompose_range p
  unfold IsMantissa
  omega

theorem IsMantissa.lt {m : Nat} (h : IsMantissa m) : m < 0x1000000 := by
  unfold IsMantissa at h; omega

/-! ### Alignment -/

@[simp] theorem shiftAlign_zero_count (pol : AlignFarPolicy) (m : Nat) : shiftAlign pol m 0 = m := by
  simp [shiftAlign]

@[simp] theorem shiftAlign_zero (pol : AlignFarPolicy) (d : Nat) : shiftAlign pol 0 d = 0 := by
  unfold shiftAlign farAlign
  cases pol <;> simp

/-- R143: a mantissa shifted by at least 1 is at most 0x800000. -/
theorem shiftAlign_le {pol : AlignFarPolicy} {m d : Nat} (hm : m < 0x1000000) (hd : 1 ≤ d) :
    shiftAlign pol m d ≤ 0x800000 := by
  unfold shiftAlign farAlign
  split
  · exact srr_le_implicit_bit hm hd
  · cases pol <;> simp; split <;> omega

theorem align_of_ge {pol : AlignFarPolicy} {ex ey : Int} (mx my : Nat) (h : ey ≤ ex) :
    align pol ex mx ey my = ⟨ex, mx, shiftAlign pol my (ex - ey).toNat⟩ := by
  simp [align, h]

theorem align_of_lt {pol : AlignFarPolicy} {ex ey : Int} (mx my : Nat) (h : ex < ey) :
    align pol ex mx ey my = ⟨ey, shiftAlign pol mx (ey - ex).toNat, my⟩ := by
  simp [align, show ¬ ex ≥ ey by omega]

@[simp] theorem align_self (pol : AlignFarPolicy) (e : Int) (mx my : Nat) :
    align pol e mx e my = ⟨e, mx, my⟩ := by
  simp [align]

/-- Alignment treats the two operands alike. -/
theorem align_comm (pol : AlignFarPolicy) (ex : Int) (mx : Nat) (ey : Int) (my : Nat) :
    align pol ey my ex mx =
      ⟨(align pol ex mx ey my).exp, (align pol ex mx ey my).mb, (align pol ex mx ey my).ma⟩ := by
  rcases lt_trichotomy ex ey with h | h | h
  · rw [align_of_ge _ _ h.le, align_of_lt _ _ h]
  · subst h; simp
  · rw [align_of_lt _ _ h, align_of_ge _ _ h.le]

/-- The common exponent is the larger one, and both aligned mantissas stay below 2^24 (R141, R143). -/
theorem align_range (pol : AlignFarPolicy) (ex : Int) {mx : Nat} (ey : Int) {my : Nat}
    (hx : mx < 0x1000000) (hy : my < 0x1000000) :
    (align pol ex mx ey my).exp = max ex ey ∧ (align pol ex mx ey my).ma < 0x1000000 ∧
      (align pol ex mx ey my).mb < 0x1000000 := by
  rcases lt_trichotomy ex ey with h | h | h
  · have := shiftAlign_le (pol := pol) (d := (ey - ex).toNat) hx (by omega)
    rw [align_of_lt _ _ h]
    exact ⟨by simp only; omega, by simp only; omega, hy⟩
  · subst h; simp [hx, hy]
  · have := shiftAlign_le (pol := pol) (d := (ex - ey).toNat) hy (by omega)
    rw [align_of_ge _ _ h.le]
    exact ⟨by simp only; omega, hx, by simp only; omega⟩

/-! ### Combination -/

/-- Everything `combine` can answer (R144, R145). -/
theorem combine_cases (sx : Bool) (ma : Nat) (sy : Bool) (mb : Nat) :
    (sx = sy ∧ combine sx ma sy mb = (sx, ma + mb)) ∨
    (sx ≠ sy ∧ mb < ma ∧ combine sx ma sy mb = (sx, ma - mb)) ∨
    (sx ≠ sy ∧ ma ≤ mb ∧ combine sx ma sy mb = (sy, mb - ma)) := by
  unfold combine
  by_cases h : sx = sy
  · simp [h]
  · by_cases h' : ma > mb <;> simp [h, h']
    omega

/-- Exchanging the operands keeps the mantissa, and the sign unless the mantissa is 0. -/
theorem combine_comm (sx : Bool) (ma : Nat) (sy : Bool) (mb : Nat) :
    (combine sy mb sx ma).2 = (combine sx ma sy mb).2 ∧
      ((combine sx ma sy mb).2 ≠ 0 → (combine sy mb sx ma).1 = (combine sx ma sy mb).1) := by
  unfold combine
  by_cases h : sx = sy
  · subst h; simp [Nat.add_comm]
  · have h2 : ¬ sy = sx := fun e => h e.symm
    simp only [ne_eq, h, h2, not_false_eq_true, if_true]
    split_ifs <;> simp <;> omega

@[simp] theorem combined_exp (pol : AlignFarPolicy) (tx ty : Triple) :
    (combined pol tx ty).exp = (align pol tx.exp tx.man ty.exp ty.man).exp := rfl

/-- R147: the range of the combined mantissa, and the exponent of the combined triple (R146). -/
theorem combined_range (pol : AlignFarPolicy) {tx ty : Triple} (hx : tx.man < 0x1000000) (hy : ty.man < 0x1000000) :
    (combined pol tx ty).exp = max tx.exp ty.exp ∧ (combined pol tx ty).man ≤ 0x1FFFFFE ∧
      (tx.sign ≠ ty.sign → (combined pol tx ty).man ≤ 0xFFFFFF) := by
  obtain ⟨he, ha, hb⟩ := align_range pol tx.exp ty.exp hx hy
  refine ⟨he, ?_⟩
  simp only [combined]
  rcases combine_cases tx.sign (align pol tx.exp tx.man ty.exp ty.man).ma ty.sign
      (align pol tx.exp tx.man ty.exp ty.man).mb with ⟨h, h'⟩ | ⟨h, -, h'⟩ | ⟨h, -, h'⟩ <;>
    rw [h'] <;> refine ⟨?_, fun hs => ?_⟩ <;> first | contradiction | (simp only; omega)

/-! ### Renormalization -/

/-- R162: the loop takes `j` steps, as long as it has fuel: until bit 23 is set or the exponent is -127. -/
theorem normLoop_spec (fuel : Nat) (e : Int) (m : Nat) (hm : 0 < m) (he : -127 ≤ e)
    (hf : 0x800000 ≤ m * 2 ^ fuel) :
    ∃ j : Nat, normLoop fuel e m = (e - j, m * 2 ^ j) ∧ -127 ≤ e - j ∧
      (0x800000 ≤ m * 2 ^ j ∨ e - j = -127) ∧ (j = 0 ∨ m * 2 ^ j < 0x1000000) := by
  induction fuel generalizing e m with
  | zero => exact ⟨0, by simp [normLoop], by simpa using he, .inl (by simpa using hf), .inl rfl⟩
  | succ n ih =>
    rw [normLoop]
    split
    case isTrue h =>
      rw [Nat.shiftLeft_eq, pow_one]
      obtain ⟨j, h1, h2, h3, h4⟩ := ih (e - 1) (m * 2) (by omega) (by omega)
        (by rw [Nat.mul_assoc, ← Nat.pow_succ']; exact hf)
      have hp : m * 2 ^ (j + 1) = m * 2 * 2 ^ j := by rw [Nat.mul_assoc, ← Nat.pow_succ']
      refine ⟨j + 1, ?_, ?_, ?_, .inr ?_⟩
      · rw [h1, hp]; congr 1; push_cast; omega
      · push_cast; omega
      · rw [hp]; push_cast; omega
      · rw [hp]
        rcases h4 with rfl | h4
        · omega
        · exact h4
    case isFalse h => exact ⟨0, by simp, by simpa using he, by simp; omega, .inl rfl⟩

theorem mul_pow_23 {m : Nat} (h : 0 < m) : 0x800000 ≤ m * 2 ^ 23 := by omega

/-- Everything `renorm` can answer on a combined triple (R160 to R164). -/
theorem renorm_cases (t : Triple) (hm : t.man ≤ 0x1FFFFFE) (he : -127 ≤ t.exp) :
    (0x1000000 ≤ t.man ∧ ∃ m, renorm t = ⟨t.sign, t.exp + 1, m⟩ ∧ m = srr t.man 1 ∧ 0x800000 ≤ m ∧ m ≤ 0xFFFFFF) ∨
    (t.man = 0 ∧ renorm t = ⟨false, -127, 0⟩) ∨
    (0 < t.man ∧ t.man < 0x800000 ∧ ∃ j : Nat, renorm t = ⟨t.sign, t.exp - j, t.man * 2 ^ j⟩ ∧ -127 ≤ t.exp - j ∧
      (0x800000 ≤ t.man * 2 ^ j ∨ t.exp - j = -127) ∧ t.man * 2 ^ j < 0x1000000) ∨
    (0x800000 ≤ t.man ∧ t.man ≤ 0xFFFFFF ∧ renorm t = t) := by
  unfold renorm
  split
  · refine .inl ⟨‹_›, _, rfl, rfl, ?_⟩
    rw [srr_succ t.man 0]
    split <;> omega
  split
  · exact .inr (.inl ⟨‹_›, rfl⟩)
  split
  · obtain ⟨j, h1, h2, h3, h4⟩ := normLoop_spec 23 t.exp t.man (by omega) he (mul_pow_23 (by omega))
    refine .inr (.inr (.inl ⟨by omega, ‹_›, j, ?_, h2, h3, ?_⟩))
    · simp only [h1]
    · rcases h4 with rfl | h4
      · omega
      · exact h4
  · exact .inr (.inr (.inr ⟨by omega, by omega, rfl⟩))

/-- A combined mantissa of 0 renormalizes to the zero triple whatever the sign and exponent (R163). -/
theorem renorm_of_man_zero {t : Triple} (h : t.man = 0) : renorm t = ⟨false, -127, 0⟩ := by
  simp [renorm, h]

/-- R164. -/
theorem renorm_of_normalized {t : Triple} (h1 : 0x800000 ≤ t.man) (h2 : t.man ≤ 0xFFFFFF) : renorm t = t := by
  unfold renorm
  rw [if_neg (by omega), if_neg (by omega), if_neg (by omega)]

/-! ### Result -/

/-- Everything `finish` can answer (R166 to R168) on a triple with exponent at least -127. -/
theorem finish_cases (pol : UnderflowPolicy) (t : Triple) (he : -127 ≤ t.exp) :
    (t.man ≠ 0 ∧ t.exp = -127 ∧ pol = .flush ∧ finish pol t = .ok (0, ⟨false, true⟩)) ∨
    (128 < t.exp ∧ finish pol t = .error .packRange) ∨
    (¬ (t.man ≠ 0 ∧ t.exp = -127 ∧ pol = .flush) ∧ t.exp ≤ 128 ∧
      ∃ r, finish pol t = .ok (r, ⟨decide (t.exp = 128), decide (t.man ≠ 0 ∧ t.exp = -127)⟩) ∧
      pack t.sign t.exp t.man = .ok r ∧ signBit r = t.sign ∧ (biasedExp r : Int) = t.exp + 127 ∧
      fraction r = t.man % 0x800000) := by
  by_cases h1 : t.man ≠ 0 ∧ t.exp = -127 ∧ pol = .flush
  · exact .inl ⟨h1.1, h1.2.1, h1.2.2, by simp [finish, h1]⟩
  have h1' : ¬ (decide (t.man ≠ 0 ∧ t.exp = -127) = true ∧ pol = .flush) := by
    simpa [and_assoc] using h1
  by_cases h2 : 128 < t.exp
  · exact .inr (.inl ⟨h2, by simp only [finish, if_neg h1', pack_error t.man (.inr h2)]⟩)
  · obtain ⟨r, hr, h⟩ := pack_ok (s := t.sign) t.man he (by omega)
    exact .inr (.inr ⟨h1, by omega, r, by simp only [finish, if_neg h1', hr], hr, h⟩)

/-- Everything `addPatterns` can answer (R180, R181). -/
theorem addPatterns_cases (p : Params) (x y : Word) :
    (p.specialInput = .reject ∧ (isSpecial x = true ∨ isSpecial y = true) ∧
      addPatterns p x y = .error .unsupported) ∨
    ((p.specialInput = .raw ∨ isSpecial x = false ∧ isSpecial y = false) ∧
      addPatterns p x y = finish p.underflow (renorm (combined p.alignFar (decompose x) (decompose y)))) := by
  by_cases h : p.specialInput = .raw ∨ isSpecial x = false ∧ isSpecial y = false
  · refine .inr ⟨h, ?_⟩
    rw [addPatterns, checkedDecompose_of_not_special (p := x) (h.imp id And.left)]
    simp only
    rw [checkedDecompose_of_not_special (p := y) (h.imp id And.right)]
  · have hr : p.specialInput = .reject := by
      cases hp : p.specialInput <;> simp_all
    refine .inl ⟨hr, ?_, ?_⟩
    · cases hx : isSpecial x <;> cases hy : isSpecial y <;> simp_all
    · rw [addPatterns, hr]
      cases hx : isSpecial x
      · rw [checkedDecompose_of_not_special (.inr hx)]
        have hy : isSpecial y = true := by
          cases hy : isSpecial y <;> simp_all
        simp only
        rw [checkedDecompose_error.mpr ⟨rfl, rfl, hy⟩]
      · rw [checkedDecompose_error.mpr ⟨rfl, rfl, hx⟩]

/-- The combined triple of two patterns is within the ranges `renorm_cases` needs. -/
theorem combined_decompose_range (pol : AlignFarPolicy) (x y : Word) :
    -127 ≤ (combined pol (decompose x) (decompose y)).exp ∧
    (combined pol (decompose x) (decompose y)).exp ≤ 128 ∧
    (combined pol (decompose x) (decompose y)).man ≤ 0x1FFFFFE := by
  have hx := decompose_range x
  have hy := decompose_range y
  obtain ⟨h1, h2, -⟩ := combined_range pol (decompose_isMantissa x).lt (decompose_isMantissa y).lt
  rw [h1]
  omega

/-- The renormalized triple never has an exponent below -127 (R162). -/
theorem renorm_exp_ge (t : Triple) (hm : t.man ≤ 0x1FFFFFE) (he : -127 ≤ t.exp) : -127 ≤ (renorm t).exp := by
  rcases renorm_cases t hm he with ⟨-, m, h, -⟩ | ⟨-, h⟩ | ⟨-, -, j, h, h', -⟩ | ⟨-, -, h⟩ <;> rw [h]
  · simp only; omega
  · exact h'
  · exact he

end Sys2Proof.Machine
end

