-- ==== Sys2Proof/Laws/State.lean ====
section
/-! SUPPORT. What the operations on State do to each field, and the one equation behind every meaning. -/

namespace Sys2Proof.Machine

open Sys2Proof.Config

variable (s : State) (c : Slot) (q : Response)

@[simp] theorem State.clock_params : (s.clock c).params = s.params := rfl
@[simp] theorem State.clock_inputs : (s.clock c).inputs = s.inputs := rfl
@[simp] theorem State.clock_boot : (s.clock c).boot = s.boot.afterCycle := rfl
@[simp] theorem State.clock_cycle : (s.clock c).cycle = s.cycle + 1 := rfl
@[simp] theorem State.clock_pipe : (s.clock c).pipe = (s.pipe ++ [c]).tail := rfl
@[simp] theorem State.clock_resp : (s.clock c).resp = (s.pipe ++ [c]).headD none := rfl

@[simp] theorem State.answer_params : (s.answer q).params = s.params := rfl
@[simp] theorem State.answer_inputs : (s.answer q).inputs = s.inputs := rfl
@[simp] theorem State.answer_boot : (s.answer q).boot = s.boot.afterCycle := rfl
@[simp] theorem State.answer_cycle : (s.answer q).cycle = s.cycle + 1 := rfl
@[simp] theorem State.answer_pipe : (s.answer q).pipe = (s.pipe ++ [some q]).tail := rfl
@[simp] theorem State.answer_resp : (s.answer q).resp = (s.pipe ++ [some q]).headD none := rfl

@[simp] theorem State.clockReset_params : s.clockReset.params = s.params := rfl
@[simp] theorem State.clockReset_inputs : s.clockReset.inputs = s.inputs := rfl
@[simp] theorem State.clockReset_boot : s.clockReset.boot = s.boot.afterReset := rfl
@[simp] theorem State.clockReset_cycle : s.clockReset.cycle = s.cycle + 1 := rfl
@[simp] theorem State.clockReset_pipe : s.clockReset.pipe = List.replicate s.params.latency none := rfl
@[simp] theorem State.clockReset_resp : s.clockReset.resp = s.pipe.headD none := rfl

@[simp] theorem State.resetWith_params (p : Params) : (State.resetWith p).params = p := rfl
@[simp] theorem State.resetWith_inputs (p : Params) : (State.resetWith p).inputs = [] := rfl
@[simp] theorem State.resetWith_pipe (p : Params) :
    (State.resetWith p).pipe = List.replicate p.latency none := rfl
@[simp] theorem State.resetWith_resp (p : Params) : (State.resetWith p).resp = none := rfl
@[simp] theorem State.resetWith_boot (p : Params) : (State.resetWith p).boot = .ready := rfl
@[simp] theorem State.resetWith_cycle (p : Params) : (State.resetWith p).cycle = 0 := rfl

@[simp] theorem State.powerUp_params (p : Params) : (State.powerUp p).params = p := rfl
@[simp] theorem State.powerUp_inputs (p : Params) : (State.powerUp p).inputs = [] := rfl
@[simp] theorem State.powerUp_boot (p : Params) : (State.powerUp p).boot = .powerUp := rfl
@[simp] theorem State.powerUp_pipe_length (p : Params) : (State.powerUp p).pipe.length = p.latency := by
  simp [State.powerUp]

@[simp] theorem State.present_params (r : Request) : (s.present r).params = s.params := rfl
@[simp] theorem State.present_pipe (r : Request) : (s.present r).pipe = s.pipe := rfl
@[simp] theorem State.present_resp (r : Request) : (s.present r).resp = s.resp := rfl
@[simp] theorem State.present_boot (r : Request) : (s.present r).boot = s.boot := rfl
@[simp] theorem State.present_cycle (r : Request) : (s.present r).cycle = s.cycle := rfl
@[simp] theorem State.present_inputs (r : Request) :
    (s.present r).inputs = .cycle (InPorts.present r) :: s.inputs.tail := rfl

@[simp] theorem Boot.afterCycle_powerUp : Boot.powerUp.afterCycle = .powerUp := rfl
@[simp] theorem Boot.afterCycle_ready : Boot.ready.afterCycle = .ready := rfl
@[simp] theorem Boot.afterCycle_firstReset : Boot.firstReset.afterCycle = .ready := rfl

/-- A cycle with `rst` = 0 makes the ports reliable exactly where a reset lies before it (R233). -/
@[simp] theorem Boot.afterCycle_eq_ready (b : Boot) : b.afterCycle = .ready ↔ b ≠ .powerUp := by cases b <;> decide

/-- A cycle with `rst` = 1 does so where an earlier one lies before it (R231, R233). -/
@[simp] theorem Boot.afterReset_eq_ready (b : Boot) : b.afterReset = .ready ↔ b ≠ .powerUp := by cases b <;> decide

@[simp] theorem Boot.afterReset_ne_powerUp (b : Boot) : b.afterReset ≠ .powerUp := by cases b <;> decide

/-- Reliable ports show the response due (R27, R28). -/
theorem State.respValid_of_reliable {s : State} (h : s.reliable = true) : s.respValid = s.resp.isSome := by
  rw [State.respValid, if_pos h]

/-- Reliable ports show the response due (R27, R28). -/
theorem State.outputs_of_reliable {s : State} (h : s.reliable = true) {q : Response} (hq : s.resp = some q) : s.outputs = q := by
  simp [State.outputs, State.respValid_of_reliable h, hq]

theorem State.reliable_iff (s : State) : s.reliable = true ↔ s.params.latency = 0 ∨ s.boot = .ready := by
  simp [State.reliable]

/-- Accepting a request does what `Answered` says, and nothing else. -/
theorem State.answered_answer : Answered s (s.answer q) q := by
  refine ⟨rfl, rfl, rfl, rfl, ?_, rfl⟩
  cases h : s.pipe <;> simp [h]

/-- `Answered` names one next state. -/
theorem Answered.eq_answer {s t : State} {q : Response} (h : Answered s t q) : t = s.answer q := by
  obtain ⟨hp, hi, hb, hc, hr, ht⟩ := h
  cases t
  cases hl : s.pipe <;> simp_all [State.answer, State.clock]

/-- Every meaning accepts its request: the next state is `answer` of the operation's response. -/
theorem exec_eq (i : Instr) (s : State) : exec i s = .next (s.answer (respond s.params i)) := by
  cases i <;> rfl

/-- What every instruction does, with its frame. -/
theorem exec_answered (i : Instr) (s : State) : ∃ t, exec i s = .next t ∧ Answered s t (respond s.params i) :=
  ⟨_, exec_eq i s, s.answered_answer _⟩

/-- The response does not depend on `LATENCY` (R28). -/
@[simp] theorem respond_latency (p : Params) (l : Nat) (i : Instr) : respond { p with latency := l } i = respond p i := by
  cases i <;> rfl

/-- An instruction whose response is known answers with it. -/
theorem exec_answers {i : Instr} {s : State} {q : Response} (h : respond s.params i = q) :
    ∃ t, exec i s = .next t ∧ Answered s t q :=
  h ▸ exec_answered i s

end Sys2Proof.Machine
end

