-- ==== Sys2Proof/Laws/Machine.lean ====
section
/-! SUPPORT. What one step can do, and many steps on quiet inputs. -/

namespace Sys2Proof.Machine

open Sys2Proof.Config

/-- A presented request is answered with its response, whether its `op` is reserved or not (R46, R201). -/
theorem step_of_fetch_request {s s' : State} {q : Request} (h : s.fetch = (.request q, s')) :
    step s = .next (s'.answer (respondRequest s'.params q)) := by
  unfold step respondRequest
  rw [h]
  simp only
  cases decodeRequest q
  · rfl
  · exact exec_eq _ _

theorem fetch_present (s : State) (q : Request) :
    (s.present q).fetch = (.request q, { s with inputs := s.inputs.tail }) := by
  simp [State.fetch, State.present, InPorts.kind, InPorts.present]

/-- A request put in place of the next cycle's inputs is the one answered. -/
theorem step_present (s : State) (q : Request) :
    step (s.present q) = .next (({ s with inputs := s.inputs.tail } : State).answer (respondRequest s.params q)) :=
  step_of_fetch_request (fetch_present s q)

/-- Everything one step can do. -/
theorem step_cases (s : State) :
    (s.inputs = [] ∧ step s = .next (s.clock none)) ∨
    (∃ ports rest, s.inputs = .cycle ports :: rest ∧ ports.rst = true ∧ 1 ≤ s.params.latency ∧
      step s = .next ({ s with inputs := rest } : State).clockReset) ∨
    (∃ ports rest, s.inputs = .cycle ports :: rest ∧ ¬ (ports.rst = true ∧ 1 ≤ s.params.latency) ∧
      step s = .next (({ s with inputs := rest } : State).clock (ports.accepted s.params))) ∨
    (∃ rest, s.inputs = .clockStop :: rest ∧ 1 ≤ s.params.latency ∧ step s = .refused .clockStopped) ∨
    (∃ rest, s.inputs = .clockStop :: rest ∧ s.params.latency = 0 ∧ step s = .next { s with inputs := rest }) := by
  rcases hin : s.inputs with _ | ⟨ev, rest⟩
  · exact .inl ⟨rfl, by simp [step, State.fetch, hin]⟩
  rcases ev with ports | _
  · by_cases hr : ports.rst = true ∧ 1 ≤ s.params.latency
    · refine .inr (.inl ⟨ports, rest, rfl, hr.1, hr.2, ?_⟩)
      simp [step, State.fetch, hin, InPorts.kind, hr]
    · refine .inr (.inr (.inl ⟨ports, rest, rfl, hr, ?_⟩))
      cases hv : ports.reqValid
      · simp [step, State.fetch, hin, InPorts.kind, hr, hv, InPorts.accepted]
      · have hf : s.fetch = (.request ports.req, { s with inputs := rest }) := by
          simp [State.fetch, hin, InPorts.kind, hr, hv]
        rw [step_of_fetch_request hf]
        simp [InPorts.accepted, hv, State.answer]
  · by_cases hl : 1 ≤ s.params.latency
    · exact .inr (.inr (.inr (.inl ⟨rest, rfl, hl, by simp [step, State.fetch, hin, hl]⟩)))
    · exact .inr (.inr (.inr (.inr ⟨rest, rfl, by omega, by simp [step, State.fetch, hin, hl]⟩)))

/-- A quiet cycle accepts what the host presents in it. -/
theorem step_of_quiet {s : State} {ev : HostEvent} {rest : List HostEvent} (h : s.inputs = ev :: rest)
    (hq : ev.quiet = true) :
    step s = .next (({ s with inputs := rest } : State).clock (ev.accepted s.params)) := by
  rcases ev with ports | _
  · have hr : ports.rst = false := by simpa [HostEvent.quiet] using hq
    rcases step_cases s with ⟨h', -⟩ | ⟨_, _, h', hr', -⟩ | ⟨p', r', h', -, hs⟩ | ⟨_, h', -⟩ | ⟨_, h', -⟩ <;>
      rw [h] at h' <;> cases h'
    · rw [hr] at hr'; cases hr'
    · exact hs
  · cases hq

@[simp] theorem stepN_zero (s : State) : stepN 0 s = .next s := rfl

theorem stepN_succ_of_next {s t : State} {n : Nat} (h : step s = .next t) : stepN (n + 1) s = stepN n t := by
  rw [stepN, h]

/-- Running on: `stepN` composes. -/
theorem stepN_add {s t : State} {m n : Nat} (h : stepN m s = .next t) : stepN (m + n) s = stepN n t := by
  induction m generalizing s with
  | zero => cases h; rw [Nat.zero_add]
  | succ m ih =>
    rw [show m + 1 + n = (m + n) + 1 by omega]
    cases hs : step s with
    | next u =>
      rw [stepN_succ_of_next hs] at h ⊢
      exact ih h
    | fault f => rw [stepN, hs] at h; cases h
    | refused r => rw [stepN, hs] at h; cases h

/-- Over `k` quiet cycles the pipeline is a queue: what it held and what the cycles presented come out in order. -/
theorem stepN_quiet (evs rest : List HostEvent) (s : State) (hin : s.inputs = evs ++ rest)
    (hq : ∀ ev ∈ evs, ev.quiet = true) :
    ∃ t, stepN evs.length s = .next t ∧ t.params = s.params ∧ t.inputs = rest ∧
      (evs ≠ [] → t.boot = s.boot.afterCycle) ∧
      t.pipe = (s.pipe ++ evs.map (HostEvent.accepted s.params)).drop evs.length ∧
      (evs ≠ [] → (s.pipe ++ evs.map (HostEvent.accepted s.params))[evs.length - 1]? = some t.resp) := by
  induction evs generalizing s with
  | nil => exact ⟨s, rfl, rfl, by simpa using hin, fun h => absurd rfl h, by simp, fun h => absurd rfl h⟩
  | cons ev evs ih =>
    have hs := step_of_quiet (s := s) (ev := ev) (rest := evs ++ rest) (by simpa using hin) (hq ev (by simp))
    obtain ⟨t, h1, h2, h3, hb, h4, h5⟩ := ih (({ s with inputs := evs ++ rest } : State).clock (ev.accepted s.params))
      rfl (fun e he => hq e (by simp [he]))
    refine ⟨t, by rw [List.length_cons, stepN_succ_of_next hs, h1], h2, h3, fun _ => ?_, ?_, fun _ => ?_⟩
    · cases evs with
      | nil => cases h1; rfl
      | cons e es =>
        rw [hb (by simp)]
        cases s.boot <;> simp
    · rw [h4]
      cases hp : s.pipe <;> simp
    · cases evs with
      | nil =>
        cases h1
        cases hp : s.pipe <;> simp
      | cons e es =>
        rw [← h5 (by simp)]
        cases hp : s.pipe <;> simp

end Sys2Proof.Machine
end

