-- ==== Sys2Proof/Laws/Words.lean ====
section
/-! SUPPORT. The request word W and the response word Q as numbers. -/

namespace Sys2Proof

/-- R62, with the fields added up. -/
theorem Request.toWord_toNat (q : Request) :
    q.toWord.toNat = q.sIn.toNat * 2 ^ 67 + q.op.toNat * 2 ^ 64 + q.b.toNat * 2 ^ 32 + q.a.toNat := by
  have ha := q.a.isLt
  have hb := q.b.isLt
  have ho := q.op.isLt
  simp only [Request.toWord, BitVec.toNat_append, BitVec.toNat_ofBool]
  rw [← Nat.shiftLeft_add_eq_or_of_lt ha, ← Nat.shiftLeft_add_eq_or_of_lt hb, ← Nat.shiftLeft_add_eq_or_of_lt ho]
  simp only [Nat.shiftLeft_eq]
  omega

/-- R69, with the fields added up. -/
theorem Response.toWord_toNat (q : Response) :
    q.toWord.toNat = q.flags.toNat * 2 ^ 97 + q.rSign.toNat * 2 ^ 96 + q.rExp.toNat * 2 ^ 64 +
      q.rMan.toNat * 2 ^ 32 + q.r.toNat := by
  have h1 := q.r.isLt
  have h2 := q.rMan.isLt
  have h3 := q.rExp.isLt
  have h4 : (BitVec.ofBool q.rSign).toNat < 2 ^ 1 := (BitVec.ofBool q.rSign).isLt
  simp only [Response.toWord, BitVec.toNat_append]
  rw [← Nat.shiftLeft_add_eq_or_of_lt h1, ← Nat.shiftLeft_add_eq_or_of_lt h2, ← Nat.shiftLeft_add_eq_or_of_lt h3,
    ← Nat.shiftLeft_add_eq_or_of_lt h4]
  simp only [Nat.shiftLeft_eq, BitVec.toNat_ofBool]
  omega

/-- A bit of a word as a digit of its number. -/
theorem getLsbD_eq_decide {n : Nat} (w : BitVec n) (i : Nat) : w.getLsbD i = decide (w.toNat / 2 ^ i % 2 = 1) := by
  rw [BitVec.getLsbD, Nat.testBit_eq_decide_div_mod_eq]

theorem Request.ofWord_a (w : BitVec 68) : (Request.ofWord w).a.toNat = w.toNat % 2 ^ 32 := by
  simp [Request.ofWord, BitVec.extractLsb'_toNat]
theorem Request.ofWord_b (w : BitVec 68) : (Request.ofWord w).b.toNat = w.toNat / 2 ^ 32 % 2 ^ 32 := by
  simp [Request.ofWord, BitVec.extractLsb'_toNat, Nat.shiftRight_eq_div_pow]
theorem Request.ofWord_op (w : BitVec 68) : (Request.ofWord w).op.toNat = w.toNat / 2 ^ 64 % 2 ^ 3 := by
  simp [Request.ofWord, BitVec.extractLsb'_toNat, Nat.shiftRight_eq_div_pow]
theorem Request.ofWord_sIn (w : BitVec 68) : (Request.ofWord w).sIn = decide (w.toNat / 2 ^ 67 % 2 = 1) := by
  rw [Request.ofWord, getLsbD_eq_decide]

end Sys2Proof
end

