-- ==== Sys2Proof/Laws/PerInstr.lean ====
section
/-! SUPPORT. Facts about every instruction as syntax, one lemma per constructor. -/

/-- The `op` field (bits 66..64) of an instruction's request word is its code in R63. -/
def Sys2Proof.Laws.OpField.Statement (i : Sys2Proof.Instr) : Prop :=
  (Sys2Proof.encode i).extractLsb' 64 3 = i.opcode

namespace Sys2Proof.Laws.OpField

/-- The `op` field of a request word is the `op` port (R62). -/
theorem toWord_op (q : Request) : q.toWord.extractLsb' 64 3 = q.op := by
  apply BitVec.eq_of_toNat_eq
  have ha := q.a.isLt
  have hb := q.b.isLt
  have ho := q.op.isLt
  rw [BitVec.extractLsb'_toNat, Request.toWord_toNat, Nat.shiftRight_eq_div_pow]
  omega

theorem fadd (x y : Word) : Statement (.fadd x y) := toWord_op _
theorem fsub (x y : Word) : Statement (.fsub x y) := toWord_op _
theorem decompose (p : Word) : Statement (.decompose p) := toWord_op _
theorem pack (s : Bool) (e : Int) (m : Word) : Statement (.pack s e m) := toWord_op _
theorem shiftRound (m : Word) (n : Nat) : Statement (.shiftRound m n) := toWord_op _

end Sys2Proof.Laws.OpField
end

