-- ==== Sys2Proof/Laws/Response.lean ====
section
/-! SUPPORT. Which responses the operations give, case by case, and that all of them are legal. -/

namespace Sys2Proof.Machine

open Sys2Proof.Config

/-- A fault's response is legal (R204). -/
theorem legal_ofFault (k : FaultKind) : Response.legal (Response.ofFault k) = true := by
  cases k <;> decide

/-- A result whose status flags fit its biased exponent is legal (R205, R206). -/
theorem legal_ofResult {r : Word} {st : Status} (h1 : st.overflow = true → biasedExp r = 255)
    (h2 : st.underflow = true → biasedExp r = 0) : Response.legal (Response.ofResult r st) = true := by
  obtain ⟨ov, un⟩ := st
  cases ov <;> cases un <;>
    simp_all [Response.legal, Response.ofResult, Status.mask, hasFault]

/-- A triple's response is legal. -/
theorem legal_ofTriple (t : Triple) : Response.legal (Response.ofTriple t) = true := by
  simp [Response.legal, Response.ofTriple, hasFault]

/-- Whatever `addPatterns` answers is a legal response. -/
theorem addPatterns_ok_legal {p : Params} {x y r : Word} {st : Status} (h : addPatterns p x y = .ok (r, st)) :
    (st.overflow = true → biasedExp r = 255) ∧ (st.underflow = true → biasedExp r = 0) := by
  rcases addPatterns_cases p x y with ⟨-, -, h'⟩ | ⟨-, h'⟩
  · rw [h'] at h; cases h
  rw [h'] at h
  obtain ⟨he, -, hm⟩ := combined_decompose_range p.alignFar x y
  rcases finish_cases p.underflow _ (renorm_exp_ge _ hm he) with
    ⟨-, -, -, hf⟩ | ⟨-, hf⟩ | ⟨-, -, r', hf, -, -, hb, -⟩ <;> rw [hf] at h
  · obtain ⟨rfl, rfl⟩ : (0 : Word) = r ∧ _ = st := by simpa using h
    exact ⟨by simp, fun _ => by decide⟩
  · cases h
  · obtain ⟨rfl, rfl⟩ : r' = r ∧ _ = st := by simpa using h
    refine ⟨fun h => ?_, fun h => ?_⟩
    · have := of_decide_eq_true h
      omega
    · simp only [Bool.and_eq_true, decide_eq_true_eq] at h
      omega

theorem legal_respondFadd (p : Params) (x y : Word) : Response.legal (respondFadd p x y) = true := by
  unfold respondFadd
  split
  case h_1 r st h => exact legal_ofResult (addPatterns_ok_legal h).1 (addPatterns_ok_legal h).2
  case h_2 k h => exact legal_ofFault k

/-- R182, R186: FSUB answers what FADD answers to the flipped subtrahend. -/
theorem respondFsub_eq (p : Params) (x y : Word) : respondFsub p x y = respondFadd p x (flipSign y) := rfl

theorem legal_respondDecompose (p : Params) (w : Word) : Response.legal (respondDecompose p w) = true := by
  unfold respondDecompose
  split
  · exact legal_ofTriple _
  · exact legal_ofFault _

theorem legal_respondPack (s : Bool) (e : Int) (m : Word) : Response.legal (respondPack s e m) = true := by
  unfold respondPack
  split
  · exact legal_ofResult (by simp [Status.clear]) (by simp [Status.clear])
  · exact legal_ofFault _

theorem legal_respondShiftRound (m : Word) (n : Nat) : Response.legal (respondShiftRound m n) = true := by
  unfold respondShiftRound
  split
  · exact legal_ofFault _
  · exact legal_ofResult (by simp [Status.clear]) (by simp [Status.clear])

end Sys2Proof.Machine
end

