-- ==== Sys2Proof/Tests/Slice0.lean ====
section
/-! SUPPORT. The model's own tests. Expected values are those of spec/95_test_vectors.md (the section is named at each test) or of
a rule's own corner cases; the witnesses show that the hypotheses of the statements can be met. -/

namespace Sys2Proof.Tests

open Sys2Proof Sys2Proof.Machine Sys2Proof.Config

/-! ### WellFormed: an ill-formed term for each check -/

theorem test_wellFormed_refuses_exponent_above : (Instr.pack false (2 ^ 31) 0).wellFormed = false := by decide
theorem test_wellFormed_refuses_exponent_below : (Instr.pack false (-(2 ^ 31) - 1) 0).wellFormed = false := by decide
theorem test_wellFormed_refuses_count : (Instr.shiftRound 0 (2 ^ 32)).wellFormed = false := by decide
theorem test_wellFormed_accepts_limits :
    (Instr.pack true (-(2 ^ 31)) 0).wellFormed = true ∧ (Instr.pack true (2 ^ 31 - 1) 0).wellFormed = true ∧
      (Instr.shiftRound 0 (2 ^ 32 - 1)).wellFormed = true := by decide

/-! ### Decode: words written out from R62 and R63, s_in | op | b | a -/

/-- 0 000, b = 0x3DAE147B, a = 0x3F800000 (section 1.1, scenario 2). -/
theorem test_decode_fadd :
    decode (0b0#1 ++ 0b000#3 ++ 0x3DAE147B#32 ++ 0x3F800000#32) = .ok (.fadd 0x3F800000 0x3DAE147B) := by decide
/-- 0 001, b = 0x3DAE147B, a = 0x3F8AE148 (program P1). -/
theorem test_decode_fsub :
    decode (0b0#1 ++ 0b001#3 ++ 0x3DAE147B#32 ++ 0x3F8AE148#32) = .ok (.fsub 0x3F8AE148 0x3DAE147B) := by decide
/-- 1 010 with the ignored b and s_in all ones (section 2.1). -/
theorem test_decode_decompose :
    decode (0b1#1 ++ 0b010#3 ++ 0xFFFFFFFF#32 ++ 0x3DAE147B#32) = .ok (.decompose 0x3DAE147B) := by decide
/-- 1 011, b the mantissa, a the exponent -127 (section 2.3). -/
theorem test_decode_pack :
    decode (0b1#1 ++ 0b011#3 ++ 0x00400000#32 ++ 0xFFFFFF81#32) = .ok (.pack true (-127) 0x00400000) := by decide
/-- 0 100, b the count read as unsigned, a the mantissa (section 2.4). -/
theorem test_decode_shiftRound :
    decode (0b0#1 ++ 0b100#3 ++ 0x80000000#32 ++ 0x00000001#32) = .ok (.shiftRound 1 2147483648) := by decide
/-- R67: the three reserved codes. -/
theorem test_decode_reserved :
    decode (0b0#1 ++ 0b101#3 ++ 0#32 ++ 0#32) = .error (.reservedOp 0b101) ∧
    decode (0b0#1 ++ 0b110#3 ++ 0#32 ++ 0#32) = .error (.reservedOp 0b110) ∧
    decode (0b1#1 ++ 0b111#3 ++ 0#32 ++ 0#32) = .error (.reservedOp 0b111) := by decide
/-- R68: a number of more than 68 bits is no request word. -/
theorem test_decode_tooLong : decodeNumber (2 ^ 68) = .error .tooLong := by decide
/-- The opcode table's rows with every operand bit 0. -/
theorem test_decodeTableWord_rows :
    decodeTableWord 72 0x00000000000000000 = some (.fadd 0 0) ∧
    decodeTableWord 72 0x10000000000000000 = some (.fsub 0 0) ∧
    decodeTableWord 72 0x20000000000000000 = some (.decompose 0) ∧
    decodeTableWord 72 0x30000000000000000 = some (.pack false 0 0) ∧
    decodeTableWord 72 0x40000000000000000 = some (.shiftRound 0 0) := by decide

/-! ### One request, one step, on a block right after reset -/

/-- The parameters of R9's defaults with other policies. -/
def policies (si : SpecialInputPolicy) (af : AlignFarPolicy) (uf : UnderflowPolicy) : Params :=
  { latency := 0, specialInput := si, alignFar := af, underflow := uf }

/-- What is on the outputs in the cycle that presents the word `w`. -/
def answerOf (p : Params) (w : Nat) : Slot :=
  match step ((State.resetWith p).withFetchWord 72 w) with
  | .next t => t.resp
  | .fault _ => none
  | .refused _ => none

/-- Section 2.5: rounded at alignment and again on the carry. -/
theorem test_fadd_double_rounding :
    answerOf (policies .reject .round .flush) 0x03F0000033FC00001 = some (bareResponse 0 0x40000002) := by decide
/-- Section 2.10: at d = 24 the two far policies differ. -/
theorem test_fadd_far_alignment :
    answerOf (policies .reject .round .flush) 0x033C000003F800000 = some (bareResponse 0 0x3F800001) ∧
    answerOf (policies .reject .flush .flush) 0x033C000003F800000 = some (bareResponse 0 0x3F800000) := by decide
/-- Section 2.6, scenario 4 as corrected by C1. -/
theorem test_fsub_cancellation :
    answerOf (policies .reject .round .flush) 0x13DAE147B3F800000 = some (bareResponse 0 0x3F6A3D70) := by decide
/-- Sections 2.6 and 2.11: below the normal range, under both underflow policies. -/
theorem test_fsub_underflow :
    answerOf (policies .reject .round .flush) 0x10080000000C00000 = some (bareResponse 0x20 0) ∧
    answerOf (policies .reject .round .asIs) 0x18080000080C00000 = some (bareResponse 0x20 0x80000000) := by decide
/-- Section 2.8: the response word of a negative zero's triple. -/
theorem test_decompose_negative_zero :
    (answerOf (policies .reject .round .flush) 0x20000000080000000).map Response.toWord =
      some 0x01FFFFFF810000000000000000#103 := by decide
/-- Sections 2.1 and 2.2: a subnormal-kind pattern under both policies. -/
theorem test_decompose_subnormal_kind :
    answerOf (policies .reject .round .flush) 0x20000000000000001 = some (bareResponse 0x02 0) ∧
    answerOf (policies .raw .round .flush) 0x20000000000000001 =
      some { flags := 0, rSign := false, rExp := 0xFFFFFF81, rMan := 0x800001, r := 0 } := by decide
/-- Section 2.3: bits 23 to 31 of the mantissa are discarded. -/
theorem test_pack_discards_high_bits :
    answerOf (policies .reject .round .flush) 0x3FFFFFFFF00000000 = some (bareResponse 0 0x3FFFFFFF) := by decide
/-- Section 2.3: exponents 128 and 129, -127 and -128. -/
theorem test_pack_range :
    answerOf (policies .reject .round .flush) 0x30080000000000080 = some (bareResponse 0 0x7F800000) ∧
    answerOf (policies .reject .round .flush) 0x30000000000000081 = some (bareResponse 0x08 0) ∧
    answerOf (policies .reject .round .flush) 0xB00000000FFFFFF81 = some (bareResponse 0 0x80000000) ∧
    answerOf (policies .reject .round .flush) 0x300000000FFFFFF80 = some (bareResponse 0x08 0) := by decide
/-- Section 2.4: ties to even, value even and value odd, and a count of 0 on an odd mantissa. -/
theorem test_shiftRound_ties :
    answerOf (policies .reject .round .flush) 0x40000000100000005 = some (bareResponse 0 2) ∧
    answerOf (policies .reject .round .flush) 0x40000000100000007 = some (bareResponse 0 4) ∧
    answerOf (policies .reject .round .flush) 0x40000000000000003 = some (bareResponse 0 3) := by decide
/-- Section 2.4: counts 23 and 24. -/
theorem test_shiftRound_range :
    answerOf (policies .reject .round .flush) 0x400000017FFFFFFFF = some (bareResponse 0 0x200) ∧
    answerOf (policies .reject .round .flush) 0x40000001812345678 = some (bareResponse 0x04 0) := by decide
/-- Section 2.9: under RAW an exponent of 129 is PACK_RANGE. -/
theorem test_fadd_raw_pack_range :
    answerOf (policies .raw .round .flush) 0x07F8000007F800000 = some (bareResponse 0x08 0) := by decide
/-- Section 2.7: ILLEGAL_OP wins over a special operand. -/
theorem test_reserved_op :
    answerOf (policies .reject .round .flush) 0x5000000007FC00000 = some (bareResponse 0x01 0) := by decide

/-- R71's own example lines. -/
theorem test_request_line : requestLine (.pack false (-4) 0x00AE147B) = "PACK 0, -4, 0x00AE147B" := by decide

/-! ### Witnesses: for each statement with hypotheses, values that meet them, at the limits of its clauses -/

/-- A request that only names an operation and its two operand ports. -/
def req (op : BitVec 3) (a b : Word) : Request := { sIn := false, op := op, b := b, a := a }

/-- A cycle that presents `q`, and an idle one. -/
def ask (q : Request) : HostEvent := .cycle (InPorts.present q)
def idle : HostEvent := .cycle { rst := false, reqValid := false, req := req 0 0 0 }
/-- Ports that hold `rst` at 1, with a request that is not accepted. -/
def resetPorts : InPorts := { rst := true, reqValid := true, req := req 0 0x7F7FFFFF 0x7F7FFFFF }

/-- A block with two stages, a response in each of them. -/
def busy (inputs : List HostEvent) : State :=
  { State.resetWith { Params.default with latency := 2 } with
    inputs := inputs, pipe := [some (bareResponse 0 1), some (bareResponse 0x02 0)] }

/-- A combinational block with the given inputs. -/
def plain (inputs : List HostEvent) : State := { State.reset with inputs := inputs }

theorem witness_DecodeAfterEncode : WellFormed (.pack true (-(2 ^ 31)) 7) ∧ WellFormed (.shiftRound 5 (2 ^ 32 - 1)) := by
  decide

theorem witness_EncodeAfterDecode :
    decode 0xAFFFFFFFF3DAE147B = .ok (.decompose 0x3DAE147B) ∧ decode 0xB00400000FFFFFF81 = .ok (.pack true (-127) 0x00400000) ∧
    decode 0x8800000003DAE147B = .ok (.fadd 0x3DAE147B 0x80000000) := by decide

theorem witness_ReservedOp : (req 0b101 1 2).op = 0b101#3 ∧ (req 0b110 1 2).op = 0b110#3 ∧ (req 0b111 1 2).op = 0b111#3 := by
  decide

/-- DECOMPOSE with other `b` and `s_in`, FADD with another `s_in`, a reserved code with other everything. -/
theorem witness_IgnoredInputs :
    (∀ q ∈ [(req 2 9 1, { req 2 9 0 with sIn := true }), (req 0 9 1, { req 0 9 1 with sIn := true }),
        (req 5 9 1, { req 5 8 2 with sIn := true })],
      q.1 ≠ q.2 ∧ q.1.op = q.2.op ∧ (q.1.op.toNat < 5 → q.1.a = q.2.a) ∧
        (q.1.op.toNat < 5 → q.1.op ≠ 0b010#3 → q.1.b = q.2.b) ∧ (q.1.op = 0b011#3 → q.1.sIn = q.2.sIn)) := by decide

/-- With `rst` = 0, and with `rst` = 1 on a block that has no such port. -/
theorem witness_StepRuns :
    (∀ ports ∈ [InPorts.present (req 3 0 0), resetPorts],
      (plain [.cycle ports]).inputs = .cycle ports :: [] ∧ ports.reqValid = true ∧
        (ports.rst = false ∨ (plain []).params.latency = 0)) ∧
    decodeRequest (req 3 0 0) = .ok (.pack false 0 0) ∧ decodeRequest resetPorts.req = .ok (.fadd 0x7F7FFFFF 0x7F7FFFFF) := by
  decide

theorem witness_FetchWord : decodeTableWord 72 0x40000000100000003 = some (.shiftRound 3 1) := by decide

/-- The hypothesis of DecomposeResponse's two clauses, on the fields of the pattern. -/
def namesSpecial (p : Word) : Bool :=
  decide ((p >>> 23) &&& 0xFF = 255 ∨ ((p >>> 23) &&& 0xFF = 0 ∧ p &&& 0x7FFFFF ≠ 0))

/-- The largest subnormal kind and the least all-ones kind are special, the least and largest normal patterns are not. -/
theorem witness_DecomposeResponse :
    State.reset.params.specialInput = .reject ∧
    [0x007FFFFF#32, 0x7F800000#32, 0x80000001#32, 0xFFFFFFFF#32].all namesSpecial = true ∧
    [0x00800000#32, 0x7F7FFFFF#32, 0x00000000#32, 0x80000000#32].any namesSpecial = false := by decide

theorem witness_DecomposedTripleRange :
    (checkedDecompose .reject 0x00800000 = .ok (decompose 0x00800000) ∧ (decompose 0x00800000).man ≠ 0) ∧
    (checkedDecompose .reject 0x7F7FFFFF = .ok (decompose 0x7F7FFFFF) ∧ (decompose 0x7F7FFFFF).man ≠ 0) ∧
    (decompose 0x80000000).man = 0 := by decide

theorem witness_PackResponse :
    (∀ e ∈ [(-127 : Int), 128], -127 ≤ e ∧ e ≤ 128) ∧ (∀ e ∈ [(-128 : Int), 129], e < -127 ∨ 128 < e) := by decide

theorem witness_PackUndoesDecompose :
    ((State.resetWith (policies .raw .round .flush)).params.specialInput = .raw ∨ isSpecial 0x7F800001 = false) ∧
    (State.reset.params.specialInput = .raw ∨ isSpecial 0x80000000 = false) := by decide

theorem witness_DecomposeUndoesPack :
    (∀ e ∈ [(-126 : Int), 127], -126 ≤ e ∧ e ≤ 127) ∧
    [0x800000#32, 0xFFFFFF#32].all (fun m => decide (0x800000 ≤ m.toNat) && decide (m.toNat ≤ 0xFFFFFF)) = true := by decide

theorem witness_ShiftRound :
    (0 ≤ 23 ∧ 23 ≤ 23 ∧ 23 < 24) ∧ 2 * (0x8#32).toNat = (2 * 0 + 1) * 2 ^ 4 ∧ 2 * (0x18#32).toNat = (2 * 1 + 1) * 2 ^ 4 := by
  simp

theorem witness_ShifterResultRange :
    1 ≤ 23 ∧ 23 ≤ 23 ∧ 23 ≤ 24 ∧ 0xFFFFFF < 2 ^ 24 ∧ 0xFFFFFFFF < 2 ^ 32 := by norm_num

theorem witness_FarAlignment :
    (∀ m ∈ [0, 0x800000, 0xFFFFFF], m = 0 ∨ (0x800000 ≤ m ∧ m ≤ 0xFFFFFF)) ∧ 24 ≤ 24 ∧
    shiftAlign .round 0x800001 24 = 1 ∧ shiftAlign .round 0x800000 24 = 0 ∧ shiftAlign .round 0xFFFFFF 25 = 0 := by decide

/-- Differences 0, 1 and 23 with a tie at each d above 0, and the first far difference. -/
theorem witness_AlignmentShifts :
    (0 : Int) + (0 : Nat) = 0 ∧ (-127 : Int) + (23 : Nat) = -104 ∧ 23 ≤ 23 ∧ 24 ≤ 24 ∧
    2 * 0xFFFFFF = (2 * 0x7FFFFF + 1) * 2 ^ 1 ∧ 2 * 0xC00000 = (2 * 1 + 1) * 2 ^ 23 := by decide

theorem witness_AlignedMantissaRanges :
    (decompose 0x00000000).exp = (decompose 0x80000000).exp ∧ (decompose 0x00000000).exp < (decompose 0x00800000).exp ∧
    (decompose 0x3F7FFFFF).exp < (decompose 0x3F800000).exp := by decide

theorem witness_Combine : (true ≠ false ∧ 2 > 1) ∧ (true ≠ false ∧ 2 ≤ 2) ∧ true = true := by decide

theorem witness_RenormOverflow :
    ∀ m ∈ [0x1000000, 0x1FFFFFE], 0x1000000 ≤ (Triple.mk true 127 m).man ∧ (Triple.mk true 127 m).man ≤ 0x1FFFFFE := by decide

/-- (mantissa, leading zeros): the least and the largest cancelled mantissa, at the exponent floor and away from it. -/
theorem witness_RenormCancellation :
    ∀ c ∈ [(1, 23), (0x7FFFFF, 1), (0x400000, 1), (0x3FFFFF, 2)], ∀ e ∈ [(-127 : Int), -126, 0],
      0 < (Triple.mk true e c.1).man ∧ (Triple.mk true e c.1).man < 0x800000 ∧ -127 ≤ (Triple.mk true e c.1).exp ∧
        2 ^ (23 - c.2) ≤ c.1 ∧ c.1 < 2 ^ (24 - c.2) ∧ c.2 ≤ 23 := by decide

theorem witness_RenormZeroAndNormalized :
    (Triple.mk true 5 0).man = 0 ∧ ∀ m ∈ [0x800000, 0xFFFFFF], 0x800000 ≤ (Triple.mk true 5 m).man ∧
      (Triple.mk true 5 m).man ≤ 0xFFFFFF := by decide

theorem witness_RenormResultClasses :
    checkedDecompose .reject 0x7F7FFFFF = .ok (decompose 0x7F7FFFFF) ∧
    (renorm (combined .round (decompose 0x7F7FFFFF) (decompose 0x7F7FFFFF))).exp = 128 ∧
    checkedDecompose .raw 0x7F800000 = .ok (decompose 0x7F800000) ∧
    (renorm (combined .round (decompose 0x7F800000) (decompose 0x7F800000))).exp = 129 := by decide

/-- Each clause of FaddResponse: rejected, out of pack's range, flushed, packed as overflow, as underflow and as an exact zero. -/
theorem witness_FaddResponse :
    (State.reset.params.specialInput = .reject ∧ (isSpecial 0x3F800000 = true ∨ isSpecial 0x7F800000 = true)) ∧
    128 < (renorm (combined .round (decompose 0x7F800000) (decompose 0x7F800000))).exp ∧
    ((renorm (combined .round (decompose 0x00C00000) (decompose 0x80800000))).man ≠ 0 ∧
      (renorm (combined .round (decompose 0x00C00000) (decompose 0x80800000))).exp = -127 ∧
      State.reset.params.underflow = .flush) ∧
    (renorm (combined .round (decompose 0x7F000000) (decompose 0x7F000000))).exp = 128 ∧
    (renorm (combined .round (decompose 0x3F800000) (decompose 0xBF800000))).man = 0 := by decide

theorem witness_normal_limits :
    isNormal 0x00800000 = true ∧ isNormal 0x7F7FFFFF = true ∧ isNormal 0xFF7FFFFF = true ∧ isTrueZero 0x80000000 = true := by decide

theorem witness_NoNegativeZero :
    (isSpecial 0x80000000 = false ∧ (combined .round (decompose 0x80000000) (decompose 0x80000000)).man = 0) ∧
    (isSpecial 0x3F800000 = false ∧ (combined .round (decompose 0x3F800000) (decompose (flipSign 0x3F800000))).man = 0) ∧
    Params.default.underflow = .flush ∧ (policies .reject .round .asIs).underflow = .asIs := by decide

theorem witness_DefaultResultClasses :
    State.reset.params.specialInput = .reject ∧ State.reset.params.alignFar = .round ∧ State.reset.params.underflow = .flush := by
  decide

theorem witness_CancellationIsExact :
    isSpecial 0x3F800001 = false ∧ isSpecial 0xBF800000 = false ∧ biasedExp 0x3F800001 = biasedExp 0xBF800000 ∧
    signBit 0x3F800001 ≠ signBit 0xBF800000 ∧
    (respond Params.default (.fadd 0x3F800001 0xBF800000)).flags &&& 0x20 = 0 := by decide

theorem witness_FaultingResponse :
    ∀ q ∈ [req 7 0 0, req 0 0x7FC00000 0, req 4 1 24, req 3 129 0],
      hasFault (respondRequest State.reset.params q).flags = true := by decide

theorem witness_AtMostOneFlag :
    Params.default.specialInput = .reject ∧ (req 1 0xFF800000 1).op = 0b001#3 ∧
    isSpecial (req 1 0xFF800000 1).a = true ∧ isSpecial (req 1 0xFF800000 1).b = true := by decide

theorem witness_StatusFlags :
    (isSpecial 0x7F7FFFFF = false ∧ (respond Params.default (.fadd 0x7F7FFFFF 0x7F7FFFFF)).flags &&& 0x10 ≠ 0) ∧
    (isSpecial 0x00C00000 = false ∧ isSpecial 0x80800000 = false ∧
      (respond Params.default (.fadd 0x00C00000 0x80800000)).flags &&& 0x20 ≠ 0 ∧
      (respond (policies .reject .round .asIs) (.fadd 0x00C00000 0x80800000)).flags &&& 0x20 ≠ 0) ∧
    (renorm (combined .round (decompose 0) (decompose 0))).man = 0 := by decide

/-- A busy pipelined block meets the invariant, and a step of it answers a next state. -/
theorem witness_StepKeepsInvariant :
    (busy [ask (req 0 0 0)]).Inv ∧ ∃ t, step (busy [ask (req 0 0 0)]) = .next t := by
  refine ⟨⟨rfl, fun q hq => ?_, fun q hq => ?_⟩, _, rfl⟩
  · have : q = bareResponse 0 1 ∨ q = bareResponse 0x02 0 := by simpa [busy] using hq
    rcases this with rfl | rfl <;> decide
  · simp [busy, State.resetWith] at hq

/-- Three quiet cycles on two stages: k = 2 has passed the latency, k = 0 has not. -/
theorem witness_ResponsesInOrder :
    (busy [ask (req 0 1 2), idle, idle]).pipe.length = (busy []).params.latency ∧
    (∀ ev ∈ [ask (req 0 1 2), idle, idle], ev.quiet = true) ∧ (busy []).params.latency ≤ 2 ∧ 0 < (busy []).params.latency ∧
    [ask (req 0 1 2), idle, idle][2 - (busy []).params.latency]? = some (ask (req 0 1 2)) := by decide

theorem witness_ResetDiscards :
    (busy [.cycle resetPorts, idle, idle]).pipe.length = (busy []).params.latency ∧ 1 ≤ (busy []).params.latency ∧
    resetPorts.rst = true ∧ (∀ ev ∈ [idle, idle], ev.quiet = true) ∧ [idle, idle].length ≤ (busy []).params.latency := by decide

/-- A request in the cycle after reset on two stages, and a second cycle of `rst` = 1. -/
theorem witness_ResetDiscards_after :
    [ask (req 4 3 1), idle, idle] = .cycle (InPorts.present (req 4 3 1)) :: [idle, idle] ∧
    [idle, idle].length = (busy []).params.latency ∧ (∀ ev ∈ [idle, idle], ev.quiet = true) ∧
    [HostEvent.cycle resetPorts] = [.cycle resetPorts] ∧ (busy []).boot ≠ .powerUp := by decide

/-- Fewer cycles than stages with a request among them, and more cycles than stages with none. -/
theorem witness_ResetState :
    (busy [.cycle resetPorts]).inputs = .cycle resetPorts :: [] ∧ resetPorts.rst = true ∧ 1 ≤ (busy []).params.latency ∧
    ([ask (req 4 3 1), idle].length ≤ (busy []).params.latency ∧ ∀ ev ∈ [ask (req 4 3 1), idle], ev.quiet = true) ∧
    (∀ ev ∈ [idle, idle, idle], ev.quiet = true ∧ ev.accepted (busy []).params = none) := by decide

/-- A busy block and an idle one of the same build, with different requests after the same one. -/
theorem witness_ResponseIndependent :
    (busy []).params = (State.resetWith { Params.default with latency := 2 }).params ∧
    (State.resetWith { Params.default with latency := 2 }).pipe.length = 2 ∧ (busy []).pipe ≠ [none, none] ∧
    [idle, ask (req 7 0 0)].length = (busy []).params.latency ∧ [idle, idle].length = (busy []).params.latency ∧
    (∀ ev ∈ [idle, ask (req 7 0 0)], ev.quiet = true) := by decide

theorem witness_LatencyDoesNotChangeResults :
    Params.default = { ({ Params.default with latency := 2 } : Params) with latency := Params.default.latency } ∧
    ([] : List HostEvent).length = Params.default.latency ∧ [idle, idle].length = ({ Params.default with latency := 2 } : Params).latency ∧
    0 < [ask (req 0 1 2)].length := by decide

theorem witness_ClockStop :
    (busy [.clockStop]).inputs = .clockStop :: [] ∧ 1 ≤ (busy []).params.latency ∧
    (plain [.clockStop]).inputs = .clockStop :: [] ∧ (plain []).params.latency = 0 := by decide

theorem witness_CombinationalAtLatencyZero :
    (plain [.cycle resetPorts]).params.latency = 0 ∧ (plain [.cycle resetPorts]).pipe = [] ∧
    (plain [.cycle resetPorts]).inputs = .cycle resetPorts :: [] ∧ resetPorts.reqValid = true := by decide

/-- A block of two stages at power-up. -/
def fresh (inputs : List HostEvent) : State :=
  { State.powerUp { Params.default with latency := 2 } with inputs := inputs }

/-- Reset at power-up, then fewer cycles than stages with a request, or more with none. -/
theorem witness_PowerUp :
    1 ≤ ({ Params.default with latency := 2 } : Params).latency ∧ resetPorts.rst = true ∧
    ([ask (req 4 3 1), idle].length ≤ 2 ∧ ∀ ev ∈ [ask (req 4 3 1), idle], ev.quiet = true) ∧
    (∀ ev ∈ [idle, idle, idle], ev.quiet = true ∧ ev.accepted Params.default = none) := by decide

/-- Three cycles without reset, more than there are stages, then one with `rst` = 1: the last of them leaves power-up. -/
theorem witness_RespValidIsFree :
    (fresh [ask (req 0 0 0), idle, idle, .cycle resetPorts]).boot = .powerUp ∧ 1 ≤ (fresh []).params.latency ∧
    (∀ ev ∈ [ask (req 0 0 0), idle, idle], ev.quiet = true) ∧
    ∃ t, step (fresh [.cycle resetPorts]) = .next t ∧ t.boot ≠ .powerUp ∧ ∃ u, step t = .next u ∧ u.boot ≠ .powerUp :=
  ⟨rfl, by decide, by decide, _, rfl, nofun, _, rfl, nofun⟩

/-- Program P5, cycles 0 and 1: the ports can be relied on from the cycle after the first with `rst` = 1. -/
theorem test_reset_from_powerUp :
    ∃ t u, step (fresh [.cycle resetPorts]) = .next t ∧ step t = .next u ∧ t.reliable = false ∧ u.respValid = false :=
  ⟨_, _, rfl, rfl, rfl, rfl⟩

end Sys2Proof.Tests
end

/-! SUPPORT. Proofs about the scope of the block (spec/00_scope.md): the parameters are fixed, and a cancellation is exact. -/

namespace Sys2Proof.Machine

open Sys2Proof.Config

/-! ### The number a triple denotes (R13) -/

/-- A zero mantissa denotes 0, whatever the sign and exponent. -/
theorem Triple.value_of_man_zero {t : Triple} (h : t.man = 0) : t.value = 0 := by
  simp [Triple.value, h]

/-- A left shift of the mantissa with the exponent lowered to match denotes the same number. -/
theorem Triple.value_shiftLeft (s : Bool) (e : Int) (m j : Nat) :
    Triple.value ⟨s, e - j, m * 2 ^ j⟩ = Triple.value ⟨s, e, m⟩ := by
  have hp : (2 : ℚ) ^ j * 2 ^ (e - j - 23) = 2 ^ (e - 23) := by
    rw [← zpow_natCast, ← zpow_add₀ two_ne_zero]
    congr 1
    ring
  simp only [Triple.value]
  push_cast
  rw [← hp]
  ring

/-- R144, R145, on rationals: combination adds the signed mantissas. -/
theorem combine_signed (sx : Bool) (ma : Nat) (sy : Bool) (mb : Nat) :
    (if (combine sx ma sy mb).1 then (-1 : ℚ) else 1) * (combine sx ma sy mb).2 =
      (if sx then -1 else 1) * ma + (if sy then -1 else 1) * mb := by
  rcases combine_cases sx ma sy mb with ⟨rfl, h⟩ | ⟨hs, hlt, h⟩ | ⟨hs, hle, h⟩ <;> rw [h]
  · push_cast
    ring
  · rw [Bool.eq_not.mpr hs]
    push_cast [hlt.le]
    cases sy <;> simp <;> ring
  · rw [Bool.eq_not.mpr hs]
    push_cast [hle]
    cases sy <;> simp <;> ring

/-- With equal exponents nothing is shifted out (R141), so the combined triple denotes the sum. -/
theorem combined_value_of_exp_eq (pol : AlignFarPolicy) {tx ty : Triple} (he : tx.exp = ty.exp) :
    (combined pol tx ty).value = tx.value + ty.value := by
  have hc := combine_signed tx.sign tx.man ty.sign ty.man
  simp only [Triple.value, combined, he, align_self]
  rw [hc]
  ring

/-- Without a carry (R162 to R164) renormalization keeps the number and does not raise the exponent, and leaves a zero, a normalized
mantissa, or the least exponent. -/
theorem renorm_of_no_carry {t : Triple} (hm : t.man ≤ 0xFFFFFF) (he : -127 ≤ t.exp) :
    (renorm t).value = t.value ∧ (renorm t).exp ≤ t.exp ∧
      (0x800000 ≤ (renorm t).man ∧ (renorm t).man ≤ 0xFFFFFF ∨ (renorm t).exp = -127) := by
  rcases renorm_cases t (by omega) he with
    ⟨hcarry, -⟩ | ⟨hz, h⟩ | ⟨-, -, j, h, -, hstop, hlt⟩ | ⟨hlo, hhi, h⟩
  · omega
  · rw [h, Triple.value_of_man_zero hz]
    exact ⟨Triple.value_of_man_zero rfl, he, .inr rfl⟩
  · rw [h]
    exact ⟨Triple.value_shiftLeft .., by simp only; omega, by simp only; omega⟩
  · rw [h]
    exact ⟨rfl, le_rfl, .inl ⟨hlo, hhi⟩⟩

/-! ### The result's pattern and flags -/

/-- The pattern packed from a zero or a normalized triple above the least exponent decomposes to that triple. -/
theorem decompose_of_fields {r : Word} {t : Triple} (hs : signBit r = t.sign) (he : (biasedExp r : Int) = t.exp + 127)
    (hf : fraction r = t.man % 0x800000)
    (ht : t.man = 0 ∧ t.exp = -127 ∨ 0x800000 ≤ t.man ∧ t.man ≤ 0xFFFFFF ∧ -127 < t.exp) : decompose r = t := by
  have hexp : (decompose r).exp = t.exp := by rw [decompose_exp]; omega
  have hman : (decompose r).man = t.man := by
    rw [decompose_man]
    split <;> omega
  calc decompose r = ⟨(decompose r).sign, (decompose r).exp, (decompose r).man⟩ := rfl
    _ = t := by rw [decompose_sign, hs, hexp, hman]

/-- R200: status flags are no fault bits. -/
@[simp] theorem hasFault_statusMask (st : Status) : hasFault st.mask = false := by
  obtain ⟨ov, un⟩ := st
  cases ov <;> cases un <;> decide

/-- R200: bit 5 of the flags is UNDERFLOW. -/
theorem statusMask_underflow (st : Status) : st.mask &&& 0x20 = 0 ↔ st.underflow = false := by
  obtain ⟨ov, un⟩ := st
  cases ov <;> cases un <;> decide

/-- Up to exponent 128 `finish` answers a result, and one without UNDERFLOW decomposes to the triple it was packed from, given
that the triple is normalized or has the least exponent. -/
theorem finish_exact (pol : UnderflowPolicy) {t : Triple} (hlo : -127 ≤ t.exp) (hhi : t.exp ≤ 128)
    (ht : 0x800000 ≤ t.man ∧ t.man ≤ 0xFFFFFF ∨ t.exp = -127) :
    ∃ r st, finish pol t = .ok (r, st) ∧ (st.underflow = false → decompose r = t) := by
  rcases finish_cases pol t hlo with ⟨-, -, -, h⟩ | ⟨hbig, -⟩ | ⟨-, -, r, h, -, hs, he, hf⟩
  · exact ⟨_, _, h, nofun⟩
  · omega
  · refine ⟨r, _, h, fun hu => decompose_of_fields hs he hf ?_⟩
    have : ¬ (t.man ≠ 0 ∧ t.exp = -127) := of_decide_eq_false hu
    omega

/-- R180, R181: operands that pass the check reach the arithmetic. -/
theorem addPatterns_of_accepted {p : Params} {x y : Word}
    (h : p.specialInput = .raw ∨ isSpecial x = false ∧ isSpecial y = false) :
    addPatterns p x y = finish p.underflow (renorm (combined p.alignFar (decompose x) (decompose y))) := by
  rcases addPatterns_cases p x y with ⟨hp, hxy, -⟩ | ⟨-, hadd⟩
  · rcases h with hraw | ⟨hx, hy⟩
    · rw [hp] at hraw; cases hraw
    · simp [hx, hy] at hxy
  · exact hadd

/-- R27, R180: a sum is answered on `r`, its status flags on `flags`. -/
theorem respond_fadd_of_ok {p : Params} {x y r : Word} {st : Status} (h : addPatterns p x y = .ok (r, st)) :
    respond p (.fadd x y) = bareResponse st.mask r := by
  simp only [respond, respondFadd, h]
  rfl

/-! ### The obligations -/

/-- Settles O35: with equal exponents and differing signs the combination loses nothing and cannot carry, the left shifts of
renormalization keep the number, and packing loses nothing above the least exponent. -/
theorem cancellationIsExact : Obligations.CancellationIsExact := by
  intro x y s haccepted hexp hsign
  have hexp' : (decompose x).exp = (decompose y).exp := by simp only [decompose_exp, hexp]
  obtain ⟨hlo, hhi, hman⟩ := combined_decompose_range s.params.alignFar x y
  obtain ⟨-, -, hnocarry⟩ := combined_range s.params.alignFar (decompose_isMantissa x).lt (decompose_isMantissa y).lt
  obtain ⟨hvalue, hle, hclass⟩ := renorm_of_no_carry (hnocarry hsign) hlo
  obtain ⟨r, st, hfinish, hexact⟩ := finish_exact s.params.underflow
    (renorm_exp_ge _ hman hlo) (hle.trans hhi) hclass
  obtain ⟨t, hexec, hanswered⟩ := exec_answers (s := s)
    (respond_fadd_of_ok ((addPatterns_of_accepted haccepted).trans hfinish))
  refine ⟨t, _, r, hexec, hanswered, hasFault_statusMask st, fun hu => ?_⟩
  rw [hexact ((statusMask_underflow st).mp hu), hvalue, combined_value_of_exp_eq _ hexp']

/-- Settles O46, by the cases of one step: each that answers a next state runs a cycle, or none, on the state with the first
listed input taken. -/
theorem stepKeepsParameters : Obligations.StepKeepsParameters := by
  intro s t ht
  rcases step_cases s with ⟨hin, hs⟩ | ⟨ports, rest, hin, -, -, hs⟩ | ⟨ports, rest, hin, -, hs⟩ | ⟨rest, -, -, hs⟩ |
      ⟨rest, hin, -, hs⟩ <;>
    rw [hs] at ht <;> cases ht
  all_goals simp [hin]

end Sys2Proof.Machine

/-! SUPPORT. Proofs about the state (spec/10_state.md): the invariant of the pipeline, the state after reset, and the order and time
of the responses. -/

namespace Sys2Proof.Machine

open Sys2Proof.Config

/-! ### Every response is legal (R27, R204 to R206) -/

theorem legal_respond (params : Params) (i : Instr) : Response.legal (respond params i) = true := by
  cases i with
  | fadd x y => exact legal_respondFadd params x y
  | fsub x y => exact legal_respondFadd params x (flipSign y)
  | decompose p => exact legal_respondDecompose params p
  | pack sg e m => exact legal_respondPack sg e m
  | shiftRound m n => exact legal_respondShiftRound m n

/-- A request that decodes is answered with the response of its operation (R46). -/
theorem respondRequest_of_decode {params : Params} {r : Request} {i : Instr} (h : decodeRequest r = .ok i) :
    respondRequest params r = respond params i := by
  simp only [respondRequest, h]

/-- A request with a reserved `op` is answered with ILLEGAL_OP (R67). -/
theorem respondRequest_of_decode_error {params : Params} {r : Request} {err : DecodeError}
    (h : decodeRequest r = .error err) : respondRequest params r = Response.ofFault .illegalOp := by
  simp only [respondRequest, h]

theorem legal_respondRequest (params : Params) (r : Request) : Response.legal (respondRequest params r) = true := by
  cases h : decodeRequest r with
  | ok i => rw [respondRequest_of_decode h]; exact legal_respond params i
  | error err => rw [respondRequest_of_decode_error h]; exact legal_ofFault _

theorem legal_of_accepted {params : Params} {ports : InPorts} {q : Response} (h : ports.accepted params = some q) :
    Response.legal q = true := by
  obtain ⟨-, rfl⟩ : ports.reqValid = true ∧ respondRequest params ports.req = q := by
    simpa [InPorts.accepted] using h
  exact legal_respondRequest params ports.req

/-- The response to a request does not depend on `LATENCY` (R28). -/
@[simp] theorem respondRequest_latency (params : Params) (l : Nat) (r : Request) :
    respondRequest { params with latency := l } r = respondRequest params r := by
  cases h : decodeRequest r with
  | ok i => rw [respondRequest_of_decode h, respondRequest_of_decode h, respond_latency]
  | error err => rw [respondRequest_of_decode_error h, respondRequest_of_decode_error h]

/-! ### The invariant -/

/-- A response at the head of a list of stages is one of that list. -/
theorem mem_of_headD_eq_some {l : List Slot} {q : Response} (h : l.headD none = some q) : some q ∈ l := by
  cases l with
  | nil => cases h
  | cons c cs => exact h ▸ List.mem_cons_self

/-- The invariant does not speak of the host's further inputs. -/
theorem State.Inv.withInputs {s : State} (h : s.Inv) (rest : List HostEvent) : State.Inv { s with inputs := rest } := h

/-- Accepting nothing, or a legal response, keeps the invariant: a stage or the output holds what some stage held, or what was
accepted (R29). -/
theorem State.Inv.clock {s : State} {c : Slot} (h : s.Inv) (hc : ∀ q, c = some q → Response.legal q = true) :
    (s.clock c).Inv := by
  obtain ⟨hlen, hpipe, -⟩ := h
  have hqueue : ∀ q, some q ∈ s.pipe ++ [c] → Response.legal q = true := fun q hq => by
    rcases List.mem_append.mp hq with hq | hq
    · exact hpipe q hq
    · exact hc q (List.mem_singleton.mp hq).symm
  refine ⟨by simp [hlen], fun q hq => hqueue q (List.mem_of_mem_tail hq), fun q hq => ?_⟩
  exact hqueue q (mem_of_headD_eq_some hq)

/-- A cycle with `rst` = 1 keeps the invariant: it delivers a response that was in a stage and empties the stages (R231). -/
theorem State.Inv.clockReset {s : State} (h : s.Inv) : s.clockReset.Inv := by
  obtain ⟨-, hpipe, -⟩ := h
  exact ⟨by simp, by simp, fun q hq => hpipe q (mem_of_headD_eq_some hq)⟩

theorem State.inv_resetWith (p : Params) : (State.resetWith p).Inv :=
  ⟨by simp, by simp, by simp⟩

/-! ### A reset cycle -/

/-- A cycle with `rst` = 1 on a block that has the port is a reset, whatever else the host presents in it (R231, R232). -/
theorem step_of_reset {s : State} {ports : InPorts} {rest : List HostEvent} (hin : s.inputs = .cycle ports :: rest)
    (hrst : ports.rst = true) (hlat : 1 ≤ s.params.latency) :
    step s = .next ({ s with inputs := rest } : State).clockReset := by
  rcases step_cases s with ⟨h, -⟩ | ⟨_, _, h, -, -, hs⟩ | ⟨_, _, h, hnoreset, -⟩ | ⟨_, h, -⟩ | ⟨_, h, -⟩ <;>
    rw [hin] at h <;> cases h
  · exact hs
  · exact absurd ⟨hrst, hlat⟩ hnoreset

/-! ### Quiet cycles -/

/-- After at least one quiet cycle the ports show the response due, if the block has no reset or had been reset before (R230,
R233). -/
theorem State.reliable_of_afterCycle {s t : State} (hp : t.params = s.params) (hb : t.boot = s.boot.afterCycle)
    (h : s.params.latency = 0 ∨ s.boot ≠ .powerUp) : t.reliable = true := by
  rw [State.reliable_iff, hp, hb, Boot.afterCycle_eq_ready]
  exact h

/-- From empty stages, no response is due in any of the first `LATENCY` quiet cycles, nor in a later one while nothing has been
presented (R28, R30). -/
theorem stepN_quiet_of_empty_pipe {s : State} {evs rest : List HostEvent}
    (hpipe : s.pipe = List.replicate s.params.latency none) (hin : s.inputs = evs ++ rest) (hne : evs ≠ [])
    (hq : ∀ ev ∈ evs, ev.quiet = true)
    (hnone : evs.length ≤ s.params.latency ∨ ∀ ev ∈ evs, ev.accepted s.params = none) :
    ∃ t, stepN evs.length s = .next t ∧ t.params = s.params ∧ t.boot = s.boot.afterCycle ∧ t.resp = none := by
  obtain ⟨t, hrun, hparams, -, hboot, -, hresp⟩ := stepN_quiet evs rest s hin hq
  refine ⟨t, hrun, hparams, hboot hne, ?_⟩
  have hdue := hresp hne
  rw [hpipe] at hdue
  rcases hnone with hfew | hidle
  · have hlt : evs.length - 1 < s.params.latency := by
      have := List.length_pos_iff.mpr hne
      omega
    rw [List.getElem?_append_left (by simpa using hlt), List.getElem?_replicate_of_lt hlt] at hdue
    exact (Option.some.inj hdue).symm
  · rcases List.mem_append.mp (List.mem_of_getElem? hdue) with hmem | hmem
    · exact List.eq_of_mem_replicate hmem
    · obtain ⟨ev, hev, haccepted⟩ := List.mem_map.mp hmem
      rw [← haccepted, hidle ev hev]

/-! ### A cycle with a request -/

/-- A request presented in a cycle in which no reset is taken is fetched (R26, R230). -/
theorem fetch_of_request {s : State} {ports : InPorts} {rest : List HostEvent} (hin : s.inputs = .cycle ports :: rest)
    (hvalid : ports.reqValid = true) (hrst : ports.rst = false ∨ s.params.latency = 0) :
    s.fetch = (.request ports.req, { s with inputs := rest }) := by
  have hnoreset : ¬ (ports.rst = true ∧ 1 ≤ s.params.latency) := by
    rcases hrst with h | h <;> simp [h]
  simp [State.fetch, hin, InPorts.kind, hnoreset, hvalid]

/-! ### The obligations -/

/-- Settles O45: each case of one step accepts nothing or a legal response, empties the stages, or only takes an input. -/
theorem stepKeepsInvariant : Obligations.StepKeepsInvariant := by
  intro s t hinv ht
  rcases step_cases s with ⟨-, hs⟩ | ⟨ports, rest, -, -, -, hs⟩ | ⟨ports, rest, -, -, hs⟩ | ⟨rest, -, -, hs⟩ |
      ⟨rest, -, -, hs⟩ <;>
    rw [hs] at ht <;> cases ht
  · exact hinv.clock nofun
  · exact (hinv.withInputs rest).clockReset
  · exact (hinv.withInputs rest).clock fun q => legal_of_accepted
  · exact hinv.withInputs rest

/-- Settles O11: the response is the operation's own, `respond`. -/
theorem everyOperationAnswers : Obligations.EveryOperationAnswers := by
  intro params i
  refine ⟨respond params i, legal_respond params i, fun s hs => ?_⟩
  exact exec_answers (by rw [hs])

/-- Settles O43: reset empties the stages, and empty stages give no response before a request has passed through them. -/
theorem resetState : Obligations.ResetState := by
  refine ⟨fun p => ⟨rfl, by simp, fun _ => List.eq_of_mem_replicate, fun _ => ?_⟩, fun s ports rest hin hrst hlat => ?_,
    fun p evs _ hne hq hnone => ?_, rfl, rfl, rfl, rfl⟩
  · exact State.respValid_of_reliable ((State.reliable_iff _).mpr (.inr rfl))
  · exact ⟨_, step_of_reset hin hrst hlat, rfl, rfl⟩
  · obtain ⟨t, hrun, hparams, hboot, hresp⟩ := stepN_quiet_of_empty_pipe
      (s := { State.resetWith p with inputs := evs }) (rest := []) rfl (List.append_nil evs).symm hne hq hnone
    have hreliable : t.reliable = true := State.reliable_of_afterCycle hparams hboot (.inr nofun)
    exact ⟨t, hrun, by rw [State.respValid_of_reliable hreliable, hresp]; rfl⟩

/-- Settles O47: over quiet cycles the stages are a queue (`stepN_quiet`), and its entry number `k` is due in cycle `k`: one the
pipeline held for `k` below `LATENCY`, else what was presented `LATENCY` cycles before. -/
theorem responsesInOrderAfterLatency : Obligations.ResponsesInOrderAfterLatency := by
  refine ⟨respondRequest_latency, fun s evs rest k hlen hin hq hk => ?_⟩
  obtain ⟨t, hrun, hparams, hrest, hboot, -, hresp⟩ := stepN_quiet evs rest s hin hq
  have hne : evs ≠ [] := List.ne_nil_of_length_eq_add_one hk
  have hdue : (s.pipe ++ evs.map (HostEvent.accepted s.params))[k]? = some t.resp := by
    simpa [hk] using hresp hne
  refine ⟨t, hk ▸ hrun, hrest, hparams, fun ev hle hev => ?_, fun hlt => ?_, fun hreset => ?_⟩
  · rw [List.getElem?_append_right (by omega), hlen, List.getElem?_map, hev] at hdue
    exact (Option.some.inj hdue).symm
  · rwa [List.getElem?_append_left (by omega)] at hdue
  · have hreliable : t.reliable = true := State.reliable_of_afterCycle hparams (hboot hne) hreset
    exact ⟨State.respValid_of_reliable hreliable, fun q => State.outputs_of_reliable hreliable⟩

/-- Settles O8: the fetched request and `exec` of its operation accept the same response. -/
theorem stepRunsDecodedRequest : Obligations.StepRunsDecodedRequest := by
  intro s ports rest i hin hvalid hrst hdecode
  rw [step_of_fetch_request (fetch_of_request hin hvalid hrst), respondRequest_of_decode hdecode, exec_eq]

/-- Settles O44: the stages after reset are `LATENCY` empty ones, for the build named without parameters as for every other. -/
theorem resetMeetsInvariant : Obligations.ResetMeetsInvariant :=
  ⟨State.inv_resetWith Params.default, State.inv_resetWith⟩

end Sys2Proof.Machine

/-! SUPPORT. Proofs about the independence of requests (spec/20_memory.md): the response to a request is a function of the request and the
build's parameters, and of nothing else the block holds or is presented with. -/

namespace Sys2Proof.Machine

open Sys2Proof.Config

/-! ### One request and its response -/

@[simp] theorem HostEvent.accepted_present (params : Params) (q : Request) :
    HostEvent.accepted params (.cycle (InPorts.present q)) = some (respondRequest params q) := rfl

@[simp] theorem HostEvent.quiet_present (q : Request) : HostEvent.quiet (.cycle (InPorts.present q)) = true := rfl

/-- `LATENCY` quiet cycles after a request its response is due, and reliable ports show it, whatever the stages held before and
whatever is presented after (R28, R46, R47). -/
theorem stepN_present_quiet {s : State} {q : Request} {evs rest : List HostEvent} (hlen : s.pipe.length = s.params.latency)
    (hin : s.inputs = .cycle (InPorts.present q) :: (evs ++ rest)) (hevs : evs.length = s.params.latency)
    (hquiet : ∀ ev ∈ evs, ev.quiet = true) :
    ∃ t, stepN (s.params.latency + 1) s = .next t ∧ t.resp = some (respondRequest s.params q) ∧
      (s.params.latency = 0 ∨ s.boot ≠ .powerUp → t.respValid = true ∧ t.outputs = respondRequest s.params q) := by
  have hquiet' : ∀ ev ∈ HostEvent.cycle (InPorts.present q) :: evs, ev.quiet = true :=
    List.forall_mem_cons.mpr ⟨HostEvent.quiet_present q, hquiet⟩
  obtain ⟨t, hrun, -, -, hdue, -, hports⟩ := responsesInOrderAfterLatency.2 s (.cycle (InPorts.present q) :: evs) rest
    s.params.latency hlen hin hquiet' (by rw [List.length_cons, hevs])
  have hresp : t.resp = some (respondRequest s.params q) := by
    rw [hdue (.cycle (InPorts.present q)) le_rfl (by simp), HostEvent.accepted_present]
  refine ⟨t, hrun, hresp, fun hreset => ?_⟩
  obtain ⟨hvalid, hout⟩ := hports hreset
  exact ⟨by rw [hvalid, hresp]; rfl, hout _ hresp⟩

/-! ### The obligations -/

/-- Settles O49: each block gives the request the response `respondRequest` names (`stepN_present_quiet`), a function of the
request and the parameters the two blocks share. -/
theorem responseIndependentOfOtherRequests : Obligations.ResponseIndependentOfOtherRequests := by
  intro s₁ s₂ q evs₁ evs₂ rest₁ rest₂ hparams hlen₁ hlen₂ hin₁ hin₂ hevs₁ hevs₂ hquiet₁ hquiet₂
  obtain ⟨t₁, hrun₁, hresp₁, hports₁⟩ := stepN_present_quiet hlen₁ hin₁ hevs₁ hquiet₁
  obtain ⟨t₂, hrun₂, hresp₂, hports₂⟩ := stepN_present_quiet hlen₂ hin₂ hevs₂ hquiet₂
  rw [← hparams] at hresp₂ hports₂
  refine ⟨t₁, t₂, hrun₁, hrun₂, hresp₁.trans hresp₂.symm, hresp₁, fun hreset => ?_⟩
  obtain ⟨hvalid₁, hout₁⟩ := hports₁ (hreset.imp_right And.left)
  obtain ⟨hvalid₂, hout₂⟩ := hports₂ (hreset.imp_right And.right)
  exact ⟨hvalid₁, hvalid₂, hout₁.trans hout₂.symm⟩

/-- Settles O10: the step accepts the request's response (`step_present`), and accepting it does what `Answered` says. -/
theorem presentedRequestIsAnswered : Obligations.PresentedRequestIsAnswered := fun s q =>
  ⟨_, step_present s q, State.answered_answer _ _⟩

end Sys2Proof.Machine

/-! SUPPORT. Proofs about the encoding (spec/30_encoding.md): the words W and Q carry what the ports carry, the decoder and the encoder
undo each other, and a request has no effect beyond the operation it decodes to. -/

namespace Sys2Proof

/-! ### The words W and Q are their fields side by side (R62, R69) -/

theorem ofBool_injective : Function.Injective BitVec.ofBool := by
  intro b c
  revert b c
  decide

/-- A bit of a word is its field of width 1. -/
theorem ofBool_getLsbD {n : Nat} (w : BitVec n) (i : Nat) : BitVec.ofBool (w.getLsbD i) = w.extractLsb' i 1 := by
  ext j hj
  simp [show j = 0 by omega]

/-- Fields side by side determine each other. -/
theorem bitVec_append_inj {m n : Nat} {x x' : BitVec m} {y y' : BitVec n} (h : x ++ y = x' ++ y') : x = x' ∧ y = y' := by
  constructor
  · rw [← BitVec.extractLsb'_append_eq_left (a := x) (b := y), h, BitVec.extractLsb'_append_eq_left]
  · rw [← BitVec.extractLsb'_append_eq_right (a := x) (b := y), h, BitVec.extractLsb'_append_eq_right]

theorem Request.toWord_toNat_eq_or (q : Request) : q.toWord.toNat =
    (q.sIn.toNat <<< 67) ||| (q.op.toNat <<< 64) ||| (q.b.toNat <<< 32) ||| q.a.toNat := by
  simp only [Request.toWord, BitVec.toNat_append, BitVec.toNat_ofBool, Nat.shiftLeft_or_distrib, ← Nat.shiftLeft_add]

theorem Response.toWord_toNat_eq_or (q : Response) : q.toWord.toNat = (q.flags.toNat <<< 97) ||| (q.rSign.toNat <<< 96) |||
    (q.rExp.toNat <<< 64) ||| (q.rMan.toNat <<< 32) ||| q.r.toNat := by
  simp only [Response.toWord, BitVec.toNat_append, BitVec.toNat_ofBool, Nat.shiftLeft_or_distrib, ← Nat.shiftLeft_add]

theorem Request.toWord_injective : Function.Injective Request.toWord := by
  rintro ⟨sIn, op, b, a⟩ ⟨sIn', op', b', a'⟩ h
  obtain ⟨h, rfl⟩ := bitVec_append_inj h
  obtain ⟨h, rfl⟩ := bitVec_append_inj h
  obtain ⟨h, rfl⟩ := bitVec_append_inj h
  obtain rfl : sIn = sIn' := ofBool_injective h
  rfl

theorem Response.toWord_injective : Function.Injective Response.toWord := by
  rintro ⟨flags, rSign, rExp, rMan, r⟩ ⟨flags', rSign', rExp', rMan', r'⟩ h
  obtain ⟨h, rfl⟩ := bitVec_append_inj h
  obtain ⟨h, rfl⟩ := bitVec_append_inj h
  obtain ⟨h, rfl⟩ := bitVec_append_inj h
  obtain ⟨rfl, h⟩ := bitVec_append_inj h
  obtain rfl : rSign = rSign' := ofBool_injective h
  rfl

/-- Each field of W begins where the one to its right ends. -/
@[simp] theorem Request.toWord_ofWord (w : BitVec 68) : (Request.ofWord w).toWord = w := by
  calc (Request.ofWord w).toWord
    _ = w.extractLsb' 67 1 ++ w.extractLsb' 64 3 ++ w.extractLsb' 32 32 ++ w.extractLsb' 0 32 := by
        rw [← ofBool_getLsbD]; rfl
    _ = w.extractLsb' 0 68 := by
        rw [BitVec.extractLsb'_append_extractLsb'_eq_extractLsb' (show 67 = 64 + 3 from rfl),
          BitVec.extractLsb'_append_extractLsb'_eq_extractLsb' (show 64 = 32 + 32 from rfl),
          BitVec.extractLsb'_append_extractLsb'_eq_extractLsb' (show 32 = 0 + 32 from rfl)]
    _ = w := BitVec.extractLsb'_eq_self

/-- Each field of Q begins where the one to its right ends. -/
@[simp] theorem Response.toWord_ofWord (w : BitVec 103) : (Response.ofWord w).toWord = w := by
  calc (Response.ofWord w).toWord
    _ = w.extractLsb' 97 6 ++ w.extractLsb' 96 1 ++ w.extractLsb' 64 32 ++ w.extractLsb' 32 32 ++ w.extractLsb' 0 32 := by
        rw [← ofBool_getLsbD]; rfl
    _ = w.extractLsb' 0 103 := by
        rw [BitVec.extractLsb'_append_extractLsb'_eq_extractLsb' (show 97 = 96 + 1 from rfl),
          BitVec.extractLsb'_append_extractLsb'_eq_extractLsb' (show 96 = 64 + 32 from rfl),
          BitVec.extractLsb'_append_extractLsb'_eq_extractLsb' (show 64 = 32 + 32 from rfl),
          BitVec.extractLsb'_append_extractLsb'_eq_extractLsb' (show 32 = 0 + 32 from rfl)]
    _ = w := BitVec.extractLsb'_eq_self

@[simp] theorem Request.ofWord_toWord (q : Request) : Request.ofWord q.toWord = q :=
  Request.toWord_injective (Request.toWord_ofWord _)

@[simp] theorem Response.ofWord_toWord (q : Response) : Response.ofWord q.toWord = q :=
  Response.toWord_injective (Response.toWord_ofWord _)

/-- The ports of an operation's request word are those it was written from. -/
@[simp] theorem ofWord_encode (i : Instr) : Request.ofWord (encode i) = encodeRequest i :=
  Request.ofWord_toWord _

/-! ### Integer operands and their ports (R64, R65) -/

theorem toInt_ofInt_of_exponentFits {e : Int} (h : exponentFits e = true) : (BitVec.ofInt 32 e).toInt = e := by
  obtain ⟨hlo, hhi⟩ : -(2 ^ 31) ≤ e ∧ e ≤ 2 ^ 31 - 1 := by simpa [exponentFits] using h
  exact BitVec.toInt_ofInt_eq_self (by decide) hlo (by omega)

theorem exponentFits_toInt (w : Word) : exponentFits w.toInt = true := by
  have hlo := w.le_toInt
  have hhi := w.toInt_lt
  simp only [exponentFits, Bool.and_eq_true, decide_eq_true_eq]
  omega

theorem toNat_ofNat_of_countFits {n : Nat} (h : countFits n = true) : (BitVec.ofNat 32 n).toNat = n :=
  (BitVec.toNat_ofNat ..).trans (Nat.mod_eq_of_lt (of_decide_eq_true h))

theorem countFits_toNat (w : Word) : countFits w.toNat = true := decide_eq_true w.isLt

/-! ### The decoder, code by code (R63 to R67) -/

section Decoder

variable {q : Request}

theorem decodeRequest_of_fadd (h : q.op = 0b000#3) : decodeRequest q = .ok (.fadd q.a q.b) := by
  simp [decodeRequest, h]

theorem decodeRequest_of_fsub (h : q.op = 0b001#3) : decodeRequest q = .ok (.fsub q.a q.b) := by
  simp [decodeRequest, h]

theorem decodeRequest_of_decompose (h : q.op = 0b010#3) : decodeRequest q = .ok (.decompose q.a) := by
  simp [decodeRequest, h]

theorem decodeRequest_of_pack (h : q.op = 0b011#3) : decodeRequest q = .ok (.pack q.sIn q.a.toInt q.b) := by
  simp [decodeRequest, h]

theorem decodeRequest_of_shiftRound (h : q.op = 0b100#3) : decodeRequest q = .ok (.shiftRound q.a q.b.toNat) := by
  simp [decodeRequest, h]

theorem decodeRequest_of_reserved (h : q.op = 0b101#3 ∨ q.op = 0b110#3 ∨ q.op = 0b111#3) :
    decodeRequest q = .error (.reservedOp q.op) := by
  rcases h with h | h | h <;> simp [decodeRequest, h]

/-- R63, R67: five codes name operations, the other three are reserved. -/
theorem op_cases (op : BitVec 3) : op = 0b000#3 ∨ op = 0b001#3 ∨ op = 0b010#3 ∨ op = 0b011#3 ∨ op = 0b100#3 ∨
    (op = 0b101#3 ∨ op = 0b110#3 ∨ op = 0b111#3) := by
  revert op
  decide

/-- Everything a request can decode to, with the code it then has. -/
theorem decodeRequest_ok_cases {i : Instr} (h : decodeRequest q = .ok i) :
    (q.op = 0b000#3 ∧ i = .fadd q.a q.b) ∨ (q.op = 0b001#3 ∧ i = .fsub q.a q.b) ∨
    (q.op = 0b010#3 ∧ i = .decompose q.a) ∨ (q.op = 0b011#3 ∧ i = .pack q.sIn q.a.toInt q.b) ∨
    (q.op = 0b100#3 ∧ i = .shiftRound q.a q.b.toNat) := by
  rcases op_cases q.op with hop | hop | hop | hop | hop | hop
  · rw [decodeRequest_of_fadd hop] at h; cases h; simp [hop]
  · rw [decodeRequest_of_fsub hop] at h; cases h; simp [hop]
  · rw [decodeRequest_of_decompose hop] at h; cases h; simp [hop]
  · rw [decodeRequest_of_pack hop] at h; cases h; simp [hop]
  · rw [decodeRequest_of_shiftRound hop] at h; cases h; simp [hop]
  · rw [decodeRequest_of_reserved hop] at h; cases h

theorem wellFormed_of_decodeRequest {i : Instr} (h : decodeRequest q = .ok i) : WellFormed i := by
  rcases decodeRequest_ok_cases h with ⟨-, rfl⟩ | ⟨-, rfl⟩ | ⟨-, rfl⟩ | ⟨-, rfl⟩ | ⟨-, rfl⟩
  · rfl
  · rfl
  · rfl
  · exact exponentFits_toInt q.a
  · exact countFits_toNat q.b

/-- A decoded request encoded again has the fields its operation reads, as they were (R64). -/
theorem encodeRequest_of_decodeRequest {i : Instr} (h : decodeRequest q = .ok i) :
    (encodeRequest i).op = q.op ∧ (encodeRequest i).a = q.a ∧
    (q.op ≠ 0b010#3 → (encodeRequest i).b = q.b) ∧ (q.op = 0b011#3 → (encodeRequest i).sIn = q.sIn) := by
  rcases decodeRequest_ok_cases h with ⟨hop, rfl⟩ | ⟨hop, rfl⟩ | ⟨hop, rfl⟩ | ⟨hop, rfl⟩ | ⟨hop, rfl⟩ <;>
    simp [encodeRequest, Instr.opcode, hop]

/-- Requests that agree on `op` and on the fields R64 lets its operation read decode alike (R66). -/
theorem decodeRequest_congr {q' : Request} (hop : q.op = q'.op) (ha : q.op.toNat < 5 → q.a = q'.a)
    (hb : q.op.toNat < 5 → q.op ≠ 0b010#3 → q.b = q'.b) (hs : q.op = 0b011#3 → q.sIn = q'.sIn) :
    decodeRequest q = decodeRequest q' := by
  rcases op_cases q.op with h | h | h | h | h | h
  · rw [decodeRequest_of_fadd h, decodeRequest_of_fadd (hop ▸ h), ha (by simp [h]), hb (by simp [h]) (by simp [h])]
  · rw [decodeRequest_of_fsub h, decodeRequest_of_fsub (hop ▸ h), ha (by simp [h]), hb (by simp [h]) (by simp [h])]
  · rw [decodeRequest_of_decompose h, decodeRequest_of_decompose (hop ▸ h), ha (by simp [h])]
  · rw [decodeRequest_of_pack h, decodeRequest_of_pack (hop ▸ h), ha (by simp [h]), hb (by simp [h]) (by simp [h]), hs h]
  · rw [decodeRequest_of_shiftRound h, decodeRequest_of_shiftRound (hop ▸ h), ha (by simp [h]),
      hb (by simp [h]) (by simp [h])]
  · rw [decodeRequest_of_reserved h, decodeRequest_of_reserved (hop ▸ h), hop]

end Decoder

/-- The ports that request a well-formed instruction decode to it. -/
theorem decodeRequest_encodeRequest {i : Instr} (h : WellFormed i) : decodeRequest (encodeRequest i) = .ok i := by
  cases i with
  | fadd x y => exact decodeRequest_of_fadd rfl
  | fsub x y => exact decodeRequest_of_fsub rfl
  | decompose p => exact decodeRequest_of_decompose rfl
  | pack s e m =>
    rw [decodeRequest_of_pack rfl]
    simp only [encodeRequest, toInt_ofInt_of_exponentFits h]
  | shiftRound m n =>
    rw [decodeRequest_of_shiftRound rfl]
    simp only [encodeRequest, toNat_ofNat_of_countFits h]

/-- A table word decodes as the request word of its low bits. -/
theorem decode_of_decodeTableWord {nbits w : Nat} {i : Instr} (h : decodeTableWord nbits w = some i) :
    decode (BitVec.ofNat 68 (w % 2 ^ nbits)) = .ok i := by
  unfold decodeTableWord decodeNumber at h
  split at h
  case h_1 j hj =>
    cases h
    split at hj
    · exact hj
    · cases hj
  case h_2 => cases h

end Sys2Proof

namespace Sys2Proof.Machine

/-! ### Presented requests -/

/-- The step of a presented request depends on it only through the operation it decodes to (R66). -/
theorem step_present_congr (s : State) {q q' : Request} (h : decodeRequest q = decodeRequest q') :
    step (s.present q) = step (s.present q') := by
  rw [step_present, step_present, respondRequest, respondRequest, h]

theorem step_present_of_decode (s : State) {q : Request} {i : Instr} (h : decodeRequest q = .ok i) :
    step (s.present q) = exec i { s with inputs := s.inputs.tail } := by
  rw [step_present, respondRequest_of_decode h, exec_eq]

/-! ### The obligations -/

/-- Settles O2: the ports come back from the word (`ofWord_encode`), and the operands from the ports. -/
theorem decodeAfterEncode : Obligations.DecodeAfterEncode := fun i h => by
  rw [decode, ofWord_encode]
  exact decodeRequest_encodeRequest h

/-- Settles O3, on the ports of the two words. -/
theorem encodeAfterDecode : Obligations.EncodeAfterDecode := fun w i h => by
  rw [ofWord_encode]
  exact ⟨wellFormed_of_decodeRequest h, encodeRequest_of_decodeRequest h⟩

/-- Settles O4: W is its fields side by side, which gives its number and both directions. -/
theorem requestWordLayout : Obligations.RequestWordLayout :=
  ⟨Request.toWord_toNat_eq_or, Request.ofWord_toWord, Request.toWord_ofWord⟩

/-- Settles O5: Q is its fields side by side, which gives its number and both directions. -/
theorem responseWordLayout : Obligations.ResponseWordLayout :=
  ⟨Response.toWord_toNat_eq_or, Response.ofWord_toWord, Response.toWord_ofWord⟩

/-- Settles O7: the two requests decode alike (`decodeRequest_congr`). -/
theorem ignoredInputsHaveNoEffect : Obligations.IgnoredInputsHaveNoEffect := fun s _ _ hop ha hb hs =>
  step_present_congr s (decodeRequest_congr hop ha hb hs)

/-- Settles O1, by running the decoder on each of the seven words. -/
theorem specWordsDecode : Obligations.SpecWordsDecode :=
  ⟨rfl, rfl, rfl, rfl, rfl, rfl, rfl⟩

/-- Settles O6: a presented request is answered (O10), and the response to a reserved code is ILLEGAL_OP's. -/
theorem reservedOpGivesIllegalOp : Obligations.ReservedOpGivesIllegalOp := fun s q hop => by
  have hresponse : respondRequest s.params q = bareResponse 0x01 0 :=
    respondRequest_of_decode_error (decodeRequest_of_reserved hop)
  rw [← hresponse]
  exact presentedRequestIsAnswered s q

/-- Settles O9: the word is presented as the ports it stands for, which decode to `i`. -/
theorem fetchWordRunsNext : Obligations.FetchWordRunsNext := fun s _ _ _ h =>
  step_present_of_decode s (decode_of_decodeTableWord h)

end Sys2Proof.Machine

/-! SUPPORT. Proofs about the bit codec (spec/40_bit_codec.md): the responses of DECOMPOSE and PACK, the ranges of a decomposed
triple, and the two round trips. -/

namespace Sys2Proof.Machine

open Sys2Proof.Config

/-! ### The fields of a pattern by shift and mask (R60, R101) -/

theorem toNat_and_fractionMask (p : Word) : (p &&& 0x7FFFFF).toNat = fraction p := by
  rw [fraction_eq]
  exact Nat.and_two_pow_sub_one_eq_mod p.toNat 23

theorem toNat_shiftRight_and_expMask (p : Word) : ((p >>> 23) &&& 0xFF).toNat = biasedExp p := by
  rw [biasedExp_eq, BitVec.toNat_and, BitVec.toNat_ushiftRight, Nat.shiftRight_eq_div_pow]
  exact Nat.and_two_pow_sub_one_eq_mod (p.toNat / 2 ^ 23) 8

theorem toNat_and_signlessMask (p : Word) : (p &&& 0x7FFFFFFF).toNat = p.toNat % 2 ^ 31 :=
  Nat.and_two_pow_sub_one_eq_mod p.toNat 31

/-- R70: a pattern is a true zero when its low 31 bits are 0. -/
theorem and_signlessMask_eq_zero_iff (p : Word) : p &&& 0x7FFFFFFF = 0 ↔ isTrueZero p = true := by
  have hp := pattern_toNat p
  have he := biasedExp_lt p
  have hf := fraction_lt p
  rw [isTrueZero_iff, ← BitVec.toNat_inj, toNat_and_signlessMask]
  simp only [BitVec.ofNat_eq_ofNat, BitVec.toNat_ofNat]
  omega

/-- R70, R102: the special patterns by their masked fields. -/
theorem maskedSpecial_iff (p : Word) :
    ((p >>> 23) &&& 0xFF = 255 ∨ ((p >>> 23) &&& 0xFF = 0 ∧ p &&& 0x7FFFFF ≠ 0)) ↔ isSpecial p = true := by
  rw [isSpecial_iff, ← toNat_shiftRight_and_expMask, ← toNat_and_fractionMask]
  simp only [ne_eq, ← BitVec.toNat_inj, BitVec.ofNat_eq_ofNat, BitVec.toNat_ofNat]

/-! ### A decomposed triple (R101, R103) -/

theorem decompose_man_eq_zero_iff (p : Word) : (decompose p).man = 0 ↔ isTrueZero p = true := by
  rw [decompose_man, isTrueZero_iff]
  split <;> omega

/-- R106: the exponent port in two's complement is the masked field minus 127. -/
theorem ofInt_decompose_exp (p : Word) : BitVec.ofInt 32 (decompose p).exp = ((p >>> 23) &&& 0xFF) - 127 := by
  have hb := biasedExp_lt p
  apply BitVec.eq_of_toNat_eq
  rw [decompose_exp, BitVec.toNat_sub, toNat_shiftRight_and_expMask, BitVec.toNat_ofInt]
  simp only [BitVec.ofNat_eq_ofNat, BitVec.toNat_ofNat]
  omega

/-- R106: the mantissa port. -/
theorem ofNat_decompose_man (p : Word) :
    BitVec.ofNat 32 (decompose p).man = if p &&& 0x7FFFFFFF = 0 then 0 else (p &&& 0x7FFFFF) ||| 0x800000 := by
  simp only [decompose, and_signlessMask_eq_zero_iff, ← toNat_and_fractionMask]
  split
  · rfl
  · rw [BitVec.ofNat_or, BitVec.ofNat_toNat]
    rfl

/-! ### The responses of DECOMPOSE and PACK -/

/-- R106: a pattern the check lets pass is answered with its triple. -/
theorem respond_decompose_of_accepted {params : Params} {p : Word}
    (h : params.specialInput = .raw ∨ isSpecial p = false) :
    respond params (.decompose p) = Response.ofTriple (decompose p) := by
  simp only [respond, respondDecompose, checkedDecompose_of_not_special h]

/-- R102, R106: a special pattern under REJECT is answered with UNSUPPORTED. -/
theorem respond_decompose_of_rejected {params : Params} {p : Word} (hreject : params.specialInput = .reject)
    (hspecial : isSpecial p = true) : respond params (.decompose p) = bareResponse 0x02 0 := by
  simp only [respond, respondDecompose, checkedDecompose_error.mpr ⟨rfl, hreject, hspecial⟩]
  rfl

/-- R107: a packed pattern is answered on `r` without flags. -/
theorem respond_pack_of_ok {params : Params} {sg : Bool} {e : Int} {m r : Word} (h : pack sg e m.toNat = .ok r) :
    respond params (.pack sg e m) = bareResponse 0 r := by
  simp only [respond, respondPack, h]
  rfl

/-- R105, R107: an exponent out of range is answered with PACK_RANGE. -/
theorem respond_pack_of_out_of_range {params : Params} {sg : Bool} {e : Int} {m : Word} (h : e < -127 ∨ 128 < e) :
    respond params (.pack sg e m) = bareResponse 0x08 0 := by
  simp only [respond, respondPack, pack_error m.toNat h]
  rfl

/-! ### The round trips (R108) -/

/-- `pack` discards the implicit bit that `decompose` made explicit. -/
theorem pack_decompose (p : Word) : pack (decompose p).sign (decompose p).exp (decompose p).man = .ok p := by
  refine pack_fields rfl (by rw [decompose_exp]; omega) ?_
  have hf := fraction_lt p
  rw [decompose_man]
  split <;> omega

/-- The exponent port of a decomposed triple carries its exponent (R65). -/
theorem toInt_ofTriple_decompose_rExp (p : Word) :
    (Response.ofTriple (decompose p)).rExp.toInt = (decompose p).exp := by
  obtain ⟨hlo, hhi, -⟩ := decompose_range p
  exact BitVec.toInt_ofInt_eq_self (by decide) (by omega) (by omega)

/-- The mantissa port of a decomposed triple carries its mantissa. -/
theorem toNat_ofTriple_decompose_rMan (p : Word) :
    (Response.ofTriple (decompose p)).rMan.toNat = (decompose p).man := by
  have hm := (decompose_isMantissa p).lt
  exact (BitVec.toNat_ofNat ..).trans (Nat.mod_eq_of_lt (by omega))

/-! ### The obligations -/

/-- Settles O12, on the two answers of the check (R102), with the triple's ports by shift and mask. -/
theorem decomposeResponse : Obligations.DecomposeResponse := by
  intro p s special
  have hspecial : special ↔ isSpecial p = true := maskedSpecial_iff p
  rw [hspecial]
  refine ⟨fun haccepted => ?_, fun ⟨hreject, hsp⟩ => exec_answers (respond_decompose_of_rejected hreject hsp)⟩
  have h : s.params.specialInput = .raw ∨ isSpecial p = false := by
    cases hpol : s.params.specialInput with
    | raw => exact .inl rfl
    | reject => exact .inr (Bool.eq_false_iff.mpr fun hsp => haccepted ⟨hpol, hsp⟩)
  rw [← ofInt_decompose_exp, ← ofNat_decompose_man]
  exact exec_answers (respond_decompose_of_accepted h)

/-- Settles O13: the ranges of every pattern, and of one the check lets pass. -/
theorem decomposedTripleRange : Obligations.DecomposedTripleRange := by
  refine ⟨fun p => ?_, fun p t ht hm => ?_⟩
  · obtain ⟨hlo, hhi, hman⟩ := decompose_range p
    exact ⟨hlo, hhi, (decompose_man_eq_zero_iff p).trans (and_signlessMask_eq_zero_iff p).symm, by omega, by omega⟩
  · obtain ⟨rfl, hraw | hnormal⟩ := checkedDecompose_ok.mp ht
    · cases hraw
    · exact (decompose_exp_of_not_special hnormal).resolve_left hm

/-- Settles O14, on the two ranges of the exponent (`pack_ok`, `pack_error`). -/
theorem packResponse : Obligations.PackResponse := by
  intro sg e m s
  refine ⟨fun ⟨hlo, hhi⟩ => ?_, fun h => exec_answers (respond_pack_of_out_of_range h)⟩
  obtain ⟨r, hr, hsign, hexp, hfrac⟩ := pack_ok (s := sg) m.toNat hlo hhi
  obtain ⟨t, hexec, hanswered⟩ := exec_answers (s := s) (respond_pack_of_ok hr)
  have hlow : fraction r = fraction m := hfrac.trans (fraction_eq m).symm
  exact ⟨t, r, hexec, hanswered, hsign, hexp, BitVec.eq_of_toNat_eq hlow⟩

/-- Settles O15: the ports carry the triple between the two operations, so `pack_decompose` gives the pattern back. -/
theorem packUndoesDecompose : Obligations.PackUndoesDecompose := by
  refine fun p => ⟨pack_decompose p, fun s haccepted => ?_⟩
  obtain ⟨t, hexec, hanswered⟩ := exec_answers (s := s) (respond_decompose_of_accepted haccepted)
  have hpack : pack (decompose p).sign (Response.ofTriple (decompose p)).rExp.toInt
      (Response.ofTriple (decompose p)).rMan.toNat = .ok p := by
    rw [toInt_ofTriple_decompose_rExp, toNat_ofTriple_decompose_rMan, pack_decompose]
  obtain ⟨u, hexec', hanswered'⟩ := exec_answers (s := t) (respond_pack_of_ok hpack)
  exact ⟨t, _, u, hexec, hanswered, hexec', hanswered'⟩

/-- Settles O16: the packed pattern is normal, and its fields are those of the triple (`decompose_of_fields`). -/
theorem decomposeUndoesPack : Obligations.DecomposeUndoesPack := by
  intro sg e m s hlo hhi hmlo hmhi
  obtain ⟨r, hr, hsign, hexp, hfrac⟩ := pack_ok (s := sg) (e := e) m.toNat (by omega) (by omega)
  have hdec : decompose r = ⟨sg, e, m.toNat⟩ :=
    decompose_of_fields hsign hexp hfrac (.inr ⟨hmlo, hmhi, by simp only; omega⟩)
  have hnormal : isNormal r = true := (isNormal_iff r).mpr (by omega)
  obtain ⟨t, hexec, hanswered⟩ := exec_answers (s := s) (respond_pack_of_ok hr)
  obtain ⟨u, hexec', hanswered'⟩ := exec_answers (s := t)
    (respond_decompose_of_accepted (.inr (isSpecial_of_isNormal hnormal)))
  refine ⟨t, r, u, hexec, hanswered, hexec', ?_⟩
  simpa only [hdec, Response.ofTriple, BitVec.ofNat_toNat, BitVec.setWidth_eq] using hanswered'

end Sys2Proof.Machine

/-! SUPPORT. Proofs about the rounding shifter (spec/41_rounding_shifter.md): the result's range and rounding, and the responses of
SHIFT_ROUND. -/

namespace Sys2Proof.Machine

open Sys2Proof.Config

/-! ### The result of the shifter (R124, R125) -/

/-- R124: a number of `k` bits, shifted right by `n`, is at most 2^(k-n). -/
theorem srr_le_two_pow {m n k : Nat} (h1 : 1 ≤ n) (hk : n ≤ k) (hm : m < 2 ^ k) : srr m n ≤ 2 ^ (k - n) := by
  obtain ⟨n, rfl⟩ := Nat.exists_eq_add_of_le' h1
  apply srr_le
  rwa [← Nat.pow_add, Nat.add_sub_cancel' hk]

/-- R124: a 32-bit word shifted by 1 to 32 is at most 2^31. -/
theorem srr_le_of_word {m n : Nat} (h1 : 1 ≤ n) (hn : n ≤ 32) (hm : m < 2 ^ 32) : srr m n ≤ 2 ^ 31 :=
  (srr_le_two_pow h1 hn hm).trans (Nat.pow_le_pow_right (by decide) (by omega))

/-- R124: the result fits in the 32 bits of `r`. -/
theorem toNat_ofNat_srr (m : Word) {n : Nat} (hn : n ≤ 23) :
    (BitVec.ofNat 32 (srr m.toNat n)).toNat = srr m.toNat n := by
  rw [BitVec.toNat_ofNat]
  apply Nat.mod_eq_of_lt
  rcases Nat.eq_zero_or_pos n with rfl | hpos
  · rw [srr_zero_count]
    exact m.isLt
  · have := srr_le_of_word hpos (by omega) m.isLt
    omega

/-- R125: where m / 2^n lies halfway between two integers, the bits shifted out are half of 2^n. -/
theorem two_mul_mod_of_halfway {m n : Nat} (h : ∃ k, 2 * m = (2 * k + 1) * 2 ^ n) : 2 * (m % 2 ^ n) = 2 ^ n := by
  obtain ⟨k, hk⟩ := h
  have hk' : 2 * m = 2 ^ n + 2 * 2 ^ n * k := by rw [hk]; ring
  have hp : 0 < 2 ^ n := Nat.two_pow_pos n
  calc 2 * (m % 2 ^ n)
    _ = 2 * m % (2 * 2 ^ n) := (Nat.mul_mod_mul_left ..).symm
    _ = (2 ^ n + 2 * 2 ^ n * k) % (2 * 2 ^ n) := by rw [hk']
    _ = 2 ^ n := by rw [Nat.add_mul_mod_self_left, Nat.mod_eq_of_lt (by omega)]

/-! ### The responses of SHIFT_ROUND (R126) -/

/-- R126: a count of at most 23 is answered with the shifter's result, without flags. -/
theorem respond_shiftRound_of_le {params : Params} (m : Word) {n : Nat} (hn : n ≤ 23) :
    respond params (.shiftRound m n) = bareResponse 0 (BitVec.ofNat 32 (srr m.toNat n)) := by
  simp only [respond, respondShiftRound, Nat.not_lt.mpr hn, if_false]
  rfl

/-- R123, R126: a count above 23 is answered with SHIFT_RANGE. -/
theorem respond_shiftRound_of_gt {params : Params} (m : Word) {n : Nat} (hn : 23 < n) :
    respond params (.shiftRound m n) = bareResponse 0x04 0 := by
  simp only [respond, respondShiftRound, hn, if_true]
  rfl

/-! ### The obligations -/

/-- Settles O17, on the two ranges of the count: below 24 the response carries `srr` whole, which is nearest, ties to even. -/
theorem shiftRoundToNearestEven : Obligations.ShiftRoundToNearestEven := by
  refine fun m n s => ⟨fun hn => ?_, fun hn => exec_answers (respond_shiftRound_of_gt m hn)⟩
  obtain ⟨t, hexec, hanswered⟩ := exec_answers (s := s) (respond_shiftRound_of_le m hn)
  obtain ⟨hupper, hlower, heven⟩ := srr_nearest m.toNat n
  refine ⟨t, _, hexec, hanswered, ?_⟩
  rw [toNat_ofNat_srr m hn]
  refine ⟨hupper, hlower, fun hhalfway => heven (two_mul_mod_of_halfway hhalfway), ?_⟩
  rintro rfl
  rw [srr_zero_count, BitVec.ofNat_toNat, BitVec.setWidth_eq]

/-- Settles O18: the general bound, and its two widths. -/
theorem shifterResultRange : Obligations.ShifterResultRange := fun _ _ h1 h23 =>
  ⟨fun _ => srr_le_two_pow h1, fun hm => srr_le_implicit_bit hm h1, srr_le_of_word h1 (by omega)⟩

end Sys2Proof.Machine

/-! SUPPORT. Proofs about alignment and combination (spec/42_alignment_combination.md): the shift by the exponent difference, the
ranges of the aligned and the combined mantissas, and the sum of a pattern with itself. -/

namespace Sys2Proof.Machine

open Sys2Proof.Config

/-! ### The shift of one mantissa (R141, R142) -/

/-- R141: up to a difference of 23 the policy plays no part. -/
theorem shiftAlign_of_le (pol : AlignFarPolicy) (m : Nat) {d : Nat} (hd : d ≤ 23) : shiftAlign pol m d = srr m d := by
  rw [shiftAlign, if_pos hd]

/-- R142: a difference of 24 or more is the far alignment's. -/
theorem shiftAlign_of_ge (pol : AlignFarPolicy) (m : Nat) {d : Nat} (hd : 24 ≤ d) :
    shiftAlign pol m d = farAlign pol m d := by
  rw [shiftAlign, if_neg (by omega)]

@[simp] theorem farAlign_flush (m d : Nat) : farAlign .flush m d = 0 := rfl

@[simp] theorem farAlign_round (m d : Nat) : farAlign .round m d = if d = 24 ∧ 0x800000 < m then 1 else 0 := rfl

/-- A number below half of 2^(n+1) is rounded to 0. -/
theorem srr_succ_of_lt {m n : Nat} (h : m < 2 ^ n) : srr m (n + 1) = 0 := by
  have hlt : m < 2 ^ (n + 1) := h.trans (Nat.pow_lt_pow_succ (by decide))
  rw [srr_succ, Nat.div_eq_of_lt hlt, Nat.mod_eq_of_lt hlt, if_neg (by omega)]

/-- R142: the shifter's formula on a 24-bit mantissa, for the counts the shifter itself refuses, is the ROUND policy. -/
theorem srr_eq_farAlign_round {m d : Nat} (hm : m < 0x1000000) (hd : 24 ≤ d) : srr m d = farAlign .round m d := by
  rw [farAlign_round]
  rcases hd.eq_or_lt with rfl | hlt
  · rw [srr_succ m 23]
    split <;> split <;> omega
  · obtain ⟨n, rfl⟩ := Nat.exists_eq_add_of_le' (hlt : 25 ≤ d)
    have hp : 2 ^ 24 ≤ 2 ^ (n + 24) := Nat.pow_le_pow_right (by decide) (by omega)
    rw [srr_succ_of_lt (n := n + 24) (by omega), if_neg (by omega)]

/-! ### Alignment of two operands (R141, R143) -/

theorem align_exp (pol : AlignFarPolicy) (ex : Int) (mx : Nat) (ey : Int) (my : Nat) :
    (align pol ex mx ey my).exp = max ex ey := by
  rcases le_or_gt ey ex with h | h
  · rw [align_of_ge _ _ h, max_eq_left h]
  · rw [align_of_lt _ _ h, max_eq_right h.le]

/-- R141 with the larger exponent on the left, by its distance from the other. -/
theorem align_add_left (pol : AlignFarPolicy) (e : Int) (d mx my : Nat) :
    align pol (e + d) mx e my = ⟨e + d, mx, shiftAlign pol my d⟩ := by
  rw [align_of_ge _ _ (by omega), add_sub_cancel_left, Int.toNat_natCast]

/-- R141 with the larger exponent on the right. -/
theorem align_add_right (pol : AlignFarPolicy) (e : Int) (d mx my : Nat) :
    align pol e mx (e + d) my = ⟨e + d, shiftAlign pol mx d, my⟩ := by
  rw [align_comm, align_add_left]

/-- R103: above the least exponent a decomposed mantissa has its implicit bit. -/
theorem implicit_bit_le_decompose_man {p : Word} (h : -127 < (decompose p).exp) : 0x800000 ≤ (decompose p).man := by
  have := decompose_range p
  omega

/-- R143, for two patterns with the larger exponent on the left: its operand is no zero, so its mantissa is at least the bound of
the shifted one. -/
theorem align_decompose_of_exp_lt (pol : AlignFarPolicy) {x y : Word} (h : (decompose y).exp < (decompose x).exp) :
    (align pol (decompose x).exp (decompose x).man (decompose y).exp (decompose y).man).ma = (decompose x).man ∧
      (align pol (decompose x).exp (decompose x).man (decompose y).exp (decompose y).man).mb ≤ 0x800000 ∧
      (align pol (decompose x).exp (decompose x).man (decompose y).exp (decompose y).man).mb ≤
        (align pol (decompose x).exp (decompose x).man (decompose y).exp (decompose y).man).ma := by
  obtain ⟨hleast, -⟩ := decompose_range y
  have hshifted := shiftAlign_le (pol := pol) (d := ((decompose x).exp - (decompose y).exp).toNat)
    (decompose_isMantissa y).lt (by omega)
  rw [align_of_ge _ _ h.le]
  exact ⟨rfl, hshifted, hshifted.trans (implicit_bit_le_decompose_man (by omega))⟩

/-! ### Combination (R144, R145) -/

/-- R144, R145, on integers: `combine_signed` with the signs written as negations. -/
theorem combine_signed_int (sx : Bool) (ma : Nat) (sy : Bool) (mb : Nat) :
    (if (combine sx ma sy mb).1 then -((combine sx ma sy mb).2 : Int) else (combine sx ma sy mb).2) =
      (if sx then -(ma : Int) else ma) + (if sy then -(mb : Int) else mb) := by
  have hsum := combine_signed sx ma sy mb
  simp only [ite_mul, neg_one_mul, one_mul] at hsum
  exact_mod_cast hsum

/-- R144. -/
theorem combine_of_sign_eq (s : Bool) (ma mb : Nat) : combine s ma s mb = (s, ma + mb) := by
  simp [combine]

/-- R145: with differing signs the right-hand sign wins unless the left-hand mantissa is larger. -/
theorem combine_sign_of_ne {sx sy : Bool} (ma mb : Nat) (h : sx ≠ sy) :
    (combine sx ma sy mb).1 = if mb < ma then sx else sy := by
  simp only [combine, if_pos h]
  split <;> rfl

/-! ### The sum of a triple with itself (R144, R161) -/

theorem combined_self (pol : AlignFarPolicy) (t : Triple) : combined pol t t = ⟨t.sign, t.exp, 2 * t.man⟩ := by
  simp [combined, combine_of_sign_eq, two_mul]

/-- Nothing is rounded when an even number is halved. -/
theorem srr_two_mul_one (m : Nat) : srr (2 * m) 1 = m := by
  rw [srr_succ, if_neg (by omega)]
  omega

/-- R161: the carry of a doubled mantissa is shifted back. -/
theorem renorm_two_mul (s : Bool) (e : Int) {m : Nat} (h : 0x800000 ≤ m) : renorm ⟨s, e, 2 * m⟩ = ⟨s, e + 1, m⟩ := by
  rw [renorm, if_pos (by simp only; omega), srr_two_mul_one]

/-- R166, R167: between the least exponent and 128 `finish` packs the triple, with OVERFLOW at 128 and no UNDERFLOW. -/
theorem finish_of_exp_gt (pol : UnderflowPolicy) {t : Triple} (hlo : -127 < t.exp) (hhi : t.exp ≤ 128) :
    ∃ r, finish pol t = .ok (r, ⟨decide (t.exp = 128), false⟩) ∧ signBit r = t.sign ∧
      (biasedExp r : Int) = t.exp + 127 ∧ fraction r = t.man % 0x800000 := by
  rcases finish_cases pol t hlo.le with ⟨-, hleast, -⟩ | ⟨hbig, -⟩ | ⟨-, -, r, h, -, hfields⟩
  · omega
  · omega
  · have hu : ¬ (t.man ≠ 0 ∧ t.exp = -127) := by omega
    exact ⟨r, by rw [h, decide_eq_false hu], hfields⟩

/-- R70, R101: a normal pattern has its exponent above the least one, and its implicit bit above its fraction. -/
theorem decompose_of_isNormal {p : Word} (h : isNormal p = true) :
    decompose p = ⟨signBit p, biasedExp p - 127, fraction p + 0x800000⟩ := by
  obtain ⟨hlo, -⟩ := (isNormal_iff p).mp h
  have hman : (decompose p).man = fraction p + 0x800000 := by rw [decompose_man, if_neg (by omega)]
  rw [← hman]
  rfl

/-- R161: x + x renormalizes to the triple of x with its exponent raised by 1. -/
theorem renorm_combined_self_of_isNormal (pol : AlignFarPolicy) {x : Word} (h : isNormal x = true) :
    renorm (combined pol (decompose x) (decompose x)) =
      ⟨signBit x, biasedExp x - 127 + 1, fraction x + 0x800000⟩ := by
  rw [decompose_of_isNormal h, combined_self, renorm_two_mul _ _ (by simp only; omega)]

/-! ### The obligations -/

/-- Settles O19: a far difference goes to `farAlign`, whose ROUND policy is the shifter's formula on a 24-bit mantissa. -/
theorem farAlignment : Obligations.FarAlignment := by
  intro m d hm hd
  have hround : shiftAlign .round m d = if d = 24 ∧ 0x800000 < m then 1 else 0 := by
    rw [shiftAlign_of_ge _ _ hd, farAlign_round]
  refine ⟨?_, ?_, ?_, ?_⟩
  · rw [srr_eq_farAlign_round (IsMantissa.lt hm) hd, shiftAlign_of_ge _ _ hd]
  · rw [hround]
    split <;> simp [*]
  · rw [hround]
    split <;> simp [*]
  · rw [shiftAlign_of_ge _ _ hd, farAlign_flush]

/-- Settles O55: `align` by the distance of the exponents, `shiftAlign` by its two ranges, and the shifter's rounding. -/
theorem alignmentShiftsByExponentDifference : Obligations.AlignmentShiftsByExponentDifference := by
  refine ⟨fun pol ex mx ey my => ⟨align_exp .., ?_, ?_⟩, fun pol m d hd => ?_, fun pol m d => shiftAlign_of_ge pol m⟩
  · rintro d rfl
    simp [align_add_left]
  · rintro d rfl
    simp [align_add_right]
  · obtain ⟨hupper, hlower, heven⟩ := srr_nearest m d
    rw [shiftAlign_of_le pol m hd]
    refine ⟨rfl, hupper, hlower, fun hhalfway => heven (two_mul_mod_of_halfway hhalfway), ?_⟩
    rintro rfl
    exact srr_zero_count m

/-- Settles O20: the larger exponent is on neither side, on the left, or on the right, which is the second case with the operands
exchanged. -/
theorem alignedMantissaRanges : Obligations.AlignedMantissaRanges := by
  refine ⟨fun pol x y => ⟨align_exp .., fun heq => ?_, align_decompose_of_exp_lt pol, fun hlt => ?_⟩, fun pol => ?_⟩
  · simp only [heq, align_self, and_self]
  · have hexchanged := align_decompose_of_exp_lt pol hlt
    rw [align_comm] at hexchanged
    exact hexchanged
  · cases pol <;> decide

/-- Settles O21: the signed sum, and the sign in each of the three cases of `combine`. -/
theorem combineAddsSignedMagnitudes : Obligations.CombineAddsSignedMagnitudes := by
  refine fun sx sy ma mb => ⟨combine_signed_int sx ma sy mb, ?_, fun hs hlt => ?_, fun hs hle => ?_⟩
  · rintro rfl
    rw [combine_of_sign_eq]
  · rw [combine_sign_of_ne ma mb hs, if_pos hlt]
  · rw [combine_sign_of_ne ma mb hs, if_neg (Nat.not_lt.mpr hle)]

/-- Settles O22: the ranges are those of any two 24-bit mantissas; 1.0 + 1.0 carries, and 1.0 taken from the next pattern above it
leaves 1. -/
theorem combinedMantissaRange : Obligations.CombinedMantissaRange := by
  refine ⟨fun pol x y => ?_, fun pol => ⟨0x3F800000, 0x3F800000, ?_⟩, fun pol => ⟨0x3F800001, 0xBF800000, ?_⟩⟩
  · obtain ⟨-, hsum, hdiff⟩ := combined_range pol (decompose_isMantissa x).lt (decompose_isMantissa y).lt
    exact ⟨hdiff, fun _ => hsum⟩
  · cases pol <;> decide
  · cases pol <;> decide

/-- Settles O36: the doubled mantissa is shifted back by the carry, and the raised exponent is at most 128. -/
theorem addingToItselfDoubles : Obligations.AddingToItselfDoubles := by
  intro x s hnormal
  obtain ⟨hlo, hhi⟩ := (isNormal_iff x).mp hnormal
  have hspecial := isSpecial_of_isNormal hnormal
  have hfraction := fraction_lt x
  obtain ⟨r, hfinish, hsign, hexp, hfrac⟩ := finish_of_exp_gt s.params.underflow
    (t := ⟨signBit x, biasedExp x - 127 + 1, fraction x + 0x800000⟩) (by simp only; omega) (by simp only; omega)
  have hadd := addPatterns_of_accepted (p := s.params) (.inr ⟨hspecial, hspecial⟩)
  rw [renorm_combined_self_of_isNormal s.params.alignFar hnormal, hfinish] at hadd
  obtain ⟨t, hexec, hanswered⟩ := exec_answers (s := s) (respond_fadd_of_ok hadd)
  refine ⟨t, _, r, hexec, hanswered, hsign, by simp only at hexp; omega, by simp only at hfrac; omega, ?_⟩
  have hoverflow : (biasedExp x : Int) - 127 + 1 = 128 ↔ biasedExp x = 254 := by omega
  simp [Status.mask, hoverflow]

end Sys2Proof.Machine

/-! SUPPORT. Proofs about renormalization and the result (spec/43_renormalization.md): the carry's one right shift, the number of left
shifts after cancellation, the classes of a renormalized sum, and the response to FADD. -/

namespace Sys2Proof.Machine

open Sys2Proof.Config

/-! ### The carry (R161) -/

theorem renorm_of_carry {t : Triple} (h : 0x1000000 ≤ t.man) : renorm t = ⟨t.sign, t.exp + 1, srr t.man 1⟩ := by
  rw [renorm, if_pos h]

/-- R161: one shift brings a carried mantissa back to 24 bits with bit 23 set, also where it rounds up. -/
theorem srr_one_range {m : Nat} (hlo : 0x1000000 ≤ m) (hhi : m ≤ 0x1FFFFFE) :
    0x800000 ≤ srr m 1 ∧ srr m 1 ≤ 0xFFFFFF := by
  rw [srr_succ m 0]
  split <;> omega

/-! ### The number of left shifts (R162) -/

/-- A number with `k` leading zeros within 24 bits stays below 2^24 for at most `k` left shifts. -/
theorem shift_le_leadingZeros {m k j : Nat} (hm : 2 ^ (23 - k) ≤ m) (hk : k ≤ 23) (hj : m * 2 ^ j < 0x1000000) : j ≤ k := by
  have hpow : 2 ^ (23 - k + j) < 2 ^ 24 := calc
    2 ^ (23 - k + j) = 2 ^ (23 - k) * 2 ^ j := pow_add ..
    _ ≤ m * 2 ^ j := Nat.mul_le_mul_right _ hm
    _ < 2 ^ 24 := hj
  have hexp := (Nat.pow_lt_pow_iff_right (by decide)).mp hpow
  omega

/-- It takes at least `k` left shifts to set bit 23 of a number with `k` leading zeros within 24 bits. -/
theorem leadingZeros_le_shift {m k j : Nat} (hm : m < 2 ^ (24 - k)) (hk : k ≤ 23) (hj : 0x800000 ≤ m * 2 ^ j) : k ≤ j := by
  have hpow : 2 ^ 23 < 2 ^ (24 - k + j) := calc
    2 ^ 23 ≤ m * 2 ^ j := hj
    _ < 2 ^ (24 - k) * 2 ^ j := Nat.mul_lt_mul_of_pos_right hm (Nat.two_pow_pos j)
    _ = 2 ^ (24 - k + j) := (pow_add ..).symm
  have hexp := (Nat.pow_lt_pow_iff_right (by decide)).mp hpow
  omega

/-! ### The classes of a renormalized triple (R165) -/

/-- R165: the zero triple, a normalized one, or one left sub-normal at the least exponent. -/
theorem renorm_class {t : Triple} (hm : t.man ≤ 0x1FFFFFE) (he : -127 ≤ t.exp) :
    renorm t = ⟨false, -127, 0⟩ ∨ (0x800000 ≤ (renorm t).man ∧ (renorm t).man ≤ 0xFFFFFF) ∨
      (0 < (renorm t).man ∧ (renorm t).man < 0x800000 ∧ (renorm t).exp = -127) := by
  rcases renorm_cases t hm he with ⟨-, m, h, -, hlo, hhi⟩ | ⟨-, h⟩ | ⟨hpos, -, j, h, -, hstop, hlt⟩ | ⟨hlo, hhi, h⟩
  · rw [h]
    exact .inr (.inl ⟨hlo, hhi⟩)
  · exact .inl h
  · have hpos' : 0 < t.man * 2 ^ j := Nat.mul_pos hpos (Nat.two_pow_pos j)
    rw [h]
    right
    simp only
    omega
  · rw [h]
    exact .inr (.inl ⟨hlo, hhi⟩)

/-- R161 to R164: only a carry raises the exponent, and by 1. -/
theorem renorm_exp_cases {t : Triple} (he : -127 ≤ t.exp) :
    (0x1000000 ≤ t.man ∧ (renorm t).exp = t.exp + 1) ∨ (renorm t).exp ≤ t.exp := by
  rcases le_or_gt 0x1000000 t.man with hcarry | hnocarry
  · rw [renorm_of_carry hcarry]
    exact .inl ⟨hcarry, rfl⟩
  · exact .inr (renorm_of_no_carry (by omega) he).2.1

/-- R102, R103: under REJECT a pattern that passes the check has an exponent of at most 127. -/
theorem decompose_exp_le_of_not_special {p : Word} (h : isSpecial p = false) : (decompose p).exp ≤ 127 := by
  have hrange := decompose_range p
  have hnormal := decompose_exp_of_not_special h
  omega

/-! ### What `finish` does in each class (R166 to R168) -/

theorem finish_of_exp_gt_128 (pol : UnderflowPolicy) {t : Triple} (h : 128 < t.exp) : finish pol t = .error .packRange := by
  rcases finish_cases pol t (by omega) with ⟨-, hleast, -⟩ | ⟨-, hf⟩ | ⟨-, hle, -⟩
  · omega
  · exact hf
  · omega

theorem finish_of_flushed {t : Triple} (hm : t.man ≠ 0) (he : t.exp = -127) :
    finish .flush t = .ok (0, ⟨false, true⟩) := by
  rcases finish_cases .flush t he.ge with ⟨-, -, -, hf⟩ | ⟨hbig, -⟩ | ⟨hnot, -⟩
  · exact hf
  · omega
  · exact absurd ⟨hm, he, rfl⟩ hnot

theorem finish_of_packed {pol : UnderflowPolicy} {t : Triple} (hlo : -127 ≤ t.exp) (hhi : t.exp ≤ 128)
    (hnot : ¬ (t.man ≠ 0 ∧ t.exp = -127 ∧ pol = .flush)) :
    ∃ r, finish pol t = .ok (r, ⟨decide (t.exp = 128), decide (t.man ≠ 0 ∧ t.exp = -127)⟩) ∧
      signBit r = t.sign ∧ (biasedExp r : Int) = t.exp + 127 ∧ fraction r = t.man % 2 ^ 23 := by
  rcases finish_cases pol t hlo with ⟨hm, he, hp, -⟩ | ⟨hbig, -⟩ | ⟨-, -, r, hf, -, hfields⟩
  · exact absurd ⟨hm, he, hp⟩ hnot
  · omega
  · exact ⟨r, hf, hfields⟩

/-! ### The responses of FADD (R180, R200, R204) -/

/-- R200: the flags of a status whose two conditions exclude each other. -/
theorem statusMask_decide {p q : Prop} [Decidable p] [Decidable q] (h : p → ¬ q) :
    Status.mask ⟨decide p, decide q⟩ = if p then 0x10 else if q then 0x20 else 0 := by
  by_cases hp : p
  · simp [Status.mask, hp, h hp]
  · by_cases hq : q <;> simp [Status.mask, hp, hq]

/-- R204: a fault of the sum is answered with its flag and 0 on `r`. -/
theorem respond_fadd_of_error {p : Params} {x y : Word} {k : FaultKind} (h : addPatterns p x y = .error k) :
    respond p (.fadd x y) = bareResponse k.mask 0 := by
  simp only [respond, respondFadd, h]
  rfl

/-- R181: one special operand under REJECT is enough for UNSUPPORTED. -/
theorem addPatterns_of_rejected {p : Params} {x y : Word} (hp : p.specialInput = .reject)
    (hxy : isSpecial x = true ∨ isSpecial y = true) : addPatterns p x y = .error .unsupported := by
  rcases addPatterns_cases p x y with ⟨-, -, h⟩ | ⟨hraw | ⟨hx, hy⟩, -⟩
  · exact h
  · rw [hp] at hraw
    cases hraw
  · simp [hx, hy] at hxy

/-- R181: what is not refused passes the check of both operands. -/
theorem accepted_of_not_rejected {p : Params} {x y : Word}
    (h : ¬ (p.specialInput = .reject ∧ (isSpecial x = true ∨ isSpecial y = true))) :
    p.specialInput = .raw ∨ isSpecial x = false ∧ isSpecial y = false := by
  cases hp : p.specialInput with
  | raw => exact .inl rfl
  | reject => exact .inr (by simpa [hp] using h)

/-! ### The obligations -/

/-- Settles O23: the carry's branch of `renorm`, and the range of its one shift. -/
theorem renormOverflowShiftsOnce : Obligations.RenormOverflowShiftsOnce := by
  intro t hlo hhi
  rw [renorm_of_carry hlo]
  exact ⟨rfl, srr_one_range hlo hhi⟩

/-- Settles O24: the loop stops within `k` steps and above the least exponent, and not before it reaches one of the two, so
its step count is their minimum. -/
theorem renormCancellationShifts : Obligations.RenormCancellationShifts := by
  intro t k hpos hlt hexp hlo hhi hk j
  rcases renorm_cases t (by omega) hexp with
    ⟨hcarry, -⟩ | ⟨hzero, -⟩ | ⟨-, -, i, h, hfloor, hstop, hbelow⟩ | ⟨hnormalized, -⟩
  · omega
  · omega
  · have hik : i ≤ k := shift_le_leadingZeros hlo hk hbelow
    have hreached : k ≤ i ∨ t.exp - i = -127 := hstop.imp_left (leadingZeros_le_shift hhi hk)
    obtain rfl : i = j := by omega
    rw [h]
    exact ⟨rfl, hfloor, by omega⟩
  · omega

/-- Settles O26: the three classes of `renorm_class`; the bounds follow from those of the combined exponent, which only a carry
exceeds, and a carry needs equal signs. -/
theorem renormResultClasses : Obligations.RenormResultClasses := by
  intro params x y tx ty htx hty c n
  obtain ⟨rfl, hx⟩ := checkedDecompose_ok.mp htx
  obtain ⟨rfl, hy⟩ := checkedDecompose_ok.mp hty
  obtain ⟨hlo, hhi, hman⟩ := combined_decompose_range params.alignFar x y
  obtain ⟨hmax, -, hdiff⟩ := combined_range params.alignFar (decompose_isMantissa x).lt (decompose_isMantissa y).lt
  have hreject : params.specialInput = .reject → c.exp ≤ 127 := fun hp => by
    have hx' := decompose_exp_le_of_not_special (hx.resolve_left (by simp [hp]))
    have hy' := decompose_exp_le_of_not_special (hy.resolve_left (by simp [hp]))
    exact hmax.trans_le (max_le hx' hy')
  have hfloor : -127 ≤ n.exp := renorm_exp_ge _ hman hlo
  have hraised : (0x1000000 ≤ c.man ∧ n.exp = c.exp + 1) ∨ n.exp ≤ c.exp := renorm_exp_cases hlo
  have hc : c.exp ≤ 128 := hhi
  refine ⟨?_, fun hp h128 => ?_, fun h129 => by omega⟩
  · rcases renorm_class hman hlo with hzero | ⟨hmlo, hmhi⟩ | hsubnormal
    · exact .inl hzero
    · exact .inr (.inl ⟨hmlo, hmhi, hfloor, by omega, fun hp => by have := hreject hp; omega⟩)
    · exact .inr (.inr hsubnormal)
  · have hle := hreject hp
    have hcarry : 0x1000000 ≤ c.man := by omega
    refine ⟨by omega, not_not.mp fun hsign => ?_, hcarry⟩
    have hsmall : c.man ≤ 0xFFFFFF := hdiff hsign
    omega

/-- Settles O27: a refused pair, and for an accepted one the three answers of `finish`. -/
theorem faddResponse : Obligations.FaddResponse := by
  intro x y s n rejected
  obtain ⟨hlo, -, hman⟩ := combined_decompose_range s.params.alignFar x y
  have hfloor : -127 ≤ n.exp := renorm_exp_ge _ hman hlo
  have hadd (h : ¬ rejected) : addPatterns s.params x y = finish s.params.underflow n :=
    addPatterns_of_accepted (accepted_of_not_rejected h)
  refine ⟨fun ⟨hp, hxy⟩ => ?_, fun h hbig => ?_, fun h hm he hp => ?_, fun h hle hnot => ?_⟩
  · exact exec_answers (respond_fadd_of_error (addPatterns_of_rejected hp hxy))
  · exact exec_answers (respond_fadd_of_error ((hadd h).trans (finish_of_exp_gt_128 _ hbig)))
  · have hflushed := hadd h
    rw [hp, finish_of_flushed hm he] at hflushed
    exact exec_answers (respond_fadd_of_ok hflushed)
  · obtain ⟨r, hpacked, hfields⟩ := finish_of_packed hfloor hle hnot
    obtain ⟨t, hexec, hanswered⟩ := exec_answers (s := s) (respond_fadd_of_ok ((hadd h).trans hpacked))
    rw [statusMask_decide (by omega)] at hanswered
    exact ⟨t, r, hexec, hanswered, hfields⟩

/-- Settles O25: two branches of `renorm`. -/
theorem renormZeroAndNormalized : Obligations.RenormZeroAndNormalized :=
  fun _ => ⟨renorm_of_man_zero, renorm_of_normalized⟩

end Sys2Proof.Machine

/-! SUPPORT. Proofs about FADD and FSUB (spec/44_fadd_fsub.md): FSUB as FADD of the flipped subtrahend, commutativity, zero as an
identity, zero sums, and the classes of a result under FLUSH. -/

namespace Sys2Proof.Machine

open Sys2Proof.Config

/-! ### FSUB is FADD of the flipped subtrahend (R182, R186) -/

theorem respond_fsub (p : Params) (x y : Word) : respond p (.fsub x y) = respond p (.fadd x (flipSign y)) := rfl

theorem exec_fsub (x y : Word) (s : State) : exec (.fsub x y) s = exec (.fadd x (flipSign y)) s := rfl

/-! ### Zeros, normal patterns and the sign bit (R70) -/

theorem isTrueZero_of_zero {z : Word} (h : z = 0x00000000 ∨ z = 0x80000000) : isTrueZero z = true := by
  rcases h with rfl | rfl <;> decide

theorem isSpecial_of_isTrueZero {z : Word} (h : isTrueZero z = true) : isSpecial z = false := by
  rw [isTrueZero_iff] at h
  rw [Bool.eq_false_iff, Ne, isSpecial_iff]
  omega

@[simp] theorem isNormal_flipSign (y : Word) : isNormal (flipSign y) = isNormal y := by
  simp [isNormal]

/-- R101, R103: a zero has the least exponent and no mantissa. -/
theorem decompose_of_isTrueZero {z : Word} (h : isTrueZero z = true) : decompose z = ⟨signBit z, -127, 0⟩ := by
  obtain ⟨hexp, -⟩ := (isTrueZero_iff z).mp h
  simp [decompose, h, hexp]

/-- R61, R101: the flip changes nothing but the sign. -/
theorem decompose_flipSign (y : Word) : decompose (flipSign y) = { decompose y with sign := !signBit y } := by
  have hman : (decompose (flipSign y)).man = (decompose y).man := by simp [decompose_man]
  simp only [← hman]
  simp [decompose]

/-! ### The order of the operands (R183) -/

/-- Exchanging the operands changes at most the sign of a combined mantissa of 0, which renormalization drops (R163). -/
theorem renorm_combined_comm (pol : AlignFarPolicy) (tx ty : Triple) :
    renorm (combined pol ty tx) = renorm (combined pol tx ty) := by
  obtain ⟨hman, hsign⟩ := combine_comm tx.sign (align pol tx.exp tx.man ty.exp ty.man).ma ty.sign
    (align pol tx.exp tx.man ty.exp ty.man).mb
  by_cases hzero : (combined pol tx ty).man = 0
  · have hzero' : (combined pol ty tx).man = 0 := by
      rw [combined, align_comm pol tx.exp]
      exact hman.trans hzero
    rw [renorm_of_man_zero hzero, renorm_of_man_zero hzero']
  · congr 1
    rw [combined, align_comm pol tx.exp]
    simp only [hman, hsign hzero]
    rfl

theorem addPatterns_comm (p : Params) (x y : Word) : addPatterns p x y = addPatterns p y x := by
  rcases addPatterns_cases p x y with ⟨hreject, hspecial, hxy⟩ | ⟨haccepted, hxy⟩
  · rw [hxy, addPatterns_of_rejected hreject hspecial.symm]
  · rw [hxy, addPatterns_of_accepted (haccepted.imp_right And.symm), renorm_combined_comm]

theorem respond_fadd_comm (p : Params) (x y : Word) : respond p (.fadd x y) = respond p (.fadd y x) := by
  simp only [respond, respondFadd, addPatterns_comm p x y]

/-! ### A zero operand (R184) -/

/-- A zero aligns to 0 and wins no sign against a nonzero mantissa. -/
theorem combined_zero_right (pol : AlignFarPolicy) (s : Bool) {t : Triple} (hexp : -127 ≤ t.exp) (hman : 0 < t.man) :
    combined pol t ⟨s, -127, 0⟩ = t := by
  simp only [combined, align_of_ge _ _ hexp, shiftAlign_zero]
  rcases combine_cases t.sign t.man s 0 with ⟨-, h⟩ | ⟨-, -, h⟩ | ⟨-, hle, -⟩
  · rw [h, Nat.add_zero]
  · rw [h, Nat.sub_zero]
  · omega

/-- A normal pattern's triple is finished to that pattern (R108, R166). -/
theorem finish_decompose_of_isNormal (pol : UnderflowPolicy) {x : Word} (h : isNormal x = true) :
    finish pol (decompose x) = .ok (x, Status.clear) := by
  obtain ⟨hlo, hhi⟩ := (isNormal_iff x).mp h
  have habove : (decompose x).exp ≠ -127 := by rw [decompose_exp]; omega
  have hbelow : (decompose x).exp ≠ 128 := by rw [decompose_exp]; omega
  simp only [finish, pack_decompose, habove, hbelow, and_false, false_and, decide_false, Bool.false_eq_true, if_false]
  rfl

theorem respond_fadd_zero_right (p : Params) {x z : Word} (hx : isNormal x = true) (hz : isTrueZero z = true) :
    respond p (.fadd x z) = bareResponse 0 x := by
  obtain ⟨hexp, -⟩ := decompose_range x
  have hman : 0x800000 ≤ (decompose x).man := by rw [decompose_of_isNormal hx]; simp
  have hcombined : combined p.alignFar (decompose x) (decompose z) = decompose x := by
    rw [decompose_of_isTrueZero hz, combined_zero_right _ _ hexp (by omega)]
  have hadd : addPatterns p x z = .ok (x, Status.clear) := by
    rw [addPatterns_of_accepted (.inr ⟨isSpecial_of_isNormal hx, isSpecial_of_isTrueZero hz⟩), hcombined,
      renorm_of_normalized hman (by have := (decompose_isMantissa x).lt; omega), finish_decompose_of_isNormal _ hx]
  exact respond_fadd_of_ok hadd

/-! ### A combined mantissa of 0 (R163, R185, R187) -/

theorem finish_zero (pol : UnderflowPolicy) : finish pol ⟨false, -127, 0⟩ = .ok (0, Status.clear) := by
  cases pol <;> decide

/-- R185: an exact zero sum is +0 with no flag. -/
theorem respond_fadd_of_combined_zero {p : Params} {x y : Word}
    (haccepted : p.specialInput = .raw ∨ isSpecial x = false ∧ isSpecial y = false)
    (hzero : (combined p.alignFar (decompose x) (decompose y)).man = 0) : respond p (.fadd x y) = bareResponse 0 0 := by
  have hadd := addPatterns_of_accepted haccepted
  rw [renorm_of_man_zero hzero, finish_zero] at hadd
  exact respond_fadd_of_ok hadd

/-- R145: equal mantissas at equal exponents with differing signs leave nothing. -/
theorem combined_flipSign_man (pol : AlignFarPolicy) (x : Word) :
    (combined pol (decompose x) (decompose (flipSign x))).man = 0 := by
  simp [combined, decompose_flipSign, combine]

theorem respond_fadd_flipSign_self (p : Params) {x : Word} (h : isSpecial x = false) :
    respond p (.fadd x (flipSign x)) = bareResponse 0 0 :=
  respond_fadd_of_combined_zero (.inr ⟨h, by rw [isSpecial_flipSign, h]⟩) (combined_flipSign_man _ x)

/-! ### The classes of a sum under FLUSH (R168, R188) -/

/-- The flags and results of R188, and PACK_RANGE, which RAW adds to them. -/
inductive FlushClass (policy : SpecialInputPolicy) : FlagBits → Word → Prop
  | unsupported : FlushClass policy 0x02 0
  | packRange (hraw : policy = .raw) : FlushClass policy 0x08 0
  | normal {r : Word} (hr : isNormal r = true) : FlushClass policy 0 r
  | zero : FlushClass policy 0 0
  | underflow : FlushClass policy 0x20 0
  | overflow {r : Word} (hr : biasedExp r = 255) : FlushClass policy 0x10 r

/-- R188: the only result of biased exponent 0 is +0. -/
theorem FlushClass.eq_zero_or_biasedExp_pos {policy : SpecialInputPolicy} {f : FlagBits} {r : Word}
    (h : FlushClass policy f r) : r = 0 ∨ 1 ≤ biasedExp r := by
  cases h with
  | unsupported | packRange | zero | underflow => exact .inl rfl
  | normal hr => exact .inr ((isNormal_iff r).mp hr).1
  | overflow hr => exact .inr (by omega)

theorem FlushClass.ne_negative_zero {policy : SpecialInputPolicy} {f : FlagBits} {r : Word}
    (h : FlushClass policy f r) : r ≠ 0x80000000 := by
  rintro rfl
  exact absurd h.eq_zero_or_biasedExp_pos (by decide)

theorem FlushClass.isSubnormalKind_eq_false {policy : SpecialInputPolicy} {f : FlagBits} {r : Word}
    (h : FlushClass policy f r) : isSubnormalKind r = false := by
  rcases h.eq_zero_or_biasedExp_pos with rfl | hpos
  · decide
  · simp [isSubnormalKind, Nat.ne_of_gt hpos]

/-- R165: under REJECT the renormalized exponent is at most 128. -/
theorem renorm_combined_exp_le {pol : AlignFarPolicy} {x y : Word} (hx : isSpecial x = false) (hy : isSpecial y = false) :
    (renorm (combined pol (decompose x) (decompose y))).exp ≤ 128 := by
  obtain ⟨hmax, -⟩ := combined_range pol (decompose_isMantissa x).lt (decompose_isMantissa y).lt
  have hle := max_le (decompose_exp_le_of_not_special hx) (decompose_exp_le_of_not_special hy)
  rcases renorm_exp_cases (combined_decompose_range pol x y).1 with ⟨-, h⟩ | h <;> omega

/-- R165: only the zero triple renormalizes to a mantissa of 0. -/
theorem renorm_eq_zero_or_man_ne_zero {t : Triple} (hm : t.man ≤ 0x1FFFFFE) (he : -127 ≤ t.exp) :
    renorm t = ⟨false, -127, 0⟩ ∨ (renorm t).man ≠ 0 := by
  rcases renorm_class hm he with hzero | ⟨hlo, -⟩ | ⟨hpos, -⟩
  · exact .inl hzero
  · exact .inr (by omega)
  · exact .inr (by omega)

/-- R166, R167: a packed sum is a normal pattern, or one of biased exponent 255 with OVERFLOW. -/
theorem flushClass_of_packed {policy : SpecialInputPolicy} {r : Word} {e : Int} (hlo : -127 < e) (hhi : e ≤ 128)
    (hr : (biasedExp r : Int) = e + 127) : FlushClass policy (Status.mask ⟨decide (e = 128), false⟩) r := by
  by_cases h128 : e = 128
  · rw [decide_eq_true h128]
    exact .overflow (by omega)
  · rw [decide_eq_false h128]
    exact .normal ((isNormal_iff r).mpr (by omega))

/-- R165 to R168, R181: everything FADD can answer under FLUSH. -/
theorem respond_fadd_flushClass (x y : Word) {p : Params} (hflush : p.underflow = .flush) :
    ∃ f r, respond p (.fadd x y) = bareResponse f r ∧ FlushClass p.specialInput f r := by
  rcases addPatterns_cases p x y with ⟨-, -, hadd⟩ | ⟨haccepted, hadd⟩
  · exact ⟨_, _, respond_fadd_of_error hadd, .unsupported⟩
  obtain ⟨hlo, -, hman⟩ := combined_decompose_range p.alignFar x y
  have hfloor := renorm_exp_ge _ hman hlo
  rw [hflush] at hadd
  rcases renorm_eq_zero_or_man_ne_zero hman hlo with hzero | hnonzero
  · rw [hzero, finish_zero] at hadd
    exact ⟨_, _, respond_fadd_of_ok hadd, .zero⟩
  rcases hfloor.eq_or_lt with hleast | habove
  · rw [finish_of_flushed hnonzero hleast.symm] at hadd
    exact ⟨_, _, respond_fadd_of_ok hadd, .underflow⟩
  rcases le_or_gt (renorm (combined p.alignFar (decompose x) (decompose y))).exp 128 with hle | hbig
  · obtain ⟨r, hpacked, -, hexp, -⟩ := finish_of_exp_gt .flush habove hle
    exact ⟨_, r, respond_fadd_of_ok (hadd.trans hpacked), flushClass_of_packed habove hle hexp⟩
  · have hraw := haccepted.resolve_right fun ⟨hx, hy⟩ => hbig.not_ge (renorm_combined_exp_le hx hy)
    exact ⟨_, _, respond_fadd_of_error (hadd.trans (finish_of_exp_gt_128 _ hbig)), .packRange hraw⟩

/-- R182: FADD and FSUB answer in the same classes. -/
theorem respond_flushClass {x y : Word} {i : Instr} (hi : i = .fadd x y ∨ i = .fsub x y) {p : Params}
    (hflush : p.underflow = .flush) : ∃ f r, respond p i = bareResponse f r ∧ FlushClass p.specialInput f r := by
  rcases hi with rfl | rfl
  · exact respond_fadd_flushClass x y hflush
  · exact respond_fadd_flushClass x (flipSign y) hflush

/-- R185: FLUSH leaves no way to a negative zero. -/
theorem respond_r_ne_negative_zero {x y : Word} {i : Instr} (hi : i = .fadd x y ∨ i = .fsub x y) {p : Params}
    (hflush : p.underflow = .flush) : (respond p i).r ≠ 0x80000000 := by
  obtain ⟨f, r, hresponse, hclass⟩ := respond_flushClass hi hflush
  rw [hresponse]
  exact hclass.ne_negative_zero

/-! ### A negative zero under AS_IS (R185) -/

/-- The mantissas leave 0x400000 at exponent -126, and one left shift brings that to the least exponent, where packing drops bit 23
(R104, R162, R168). -/
theorem respond_fadd_negative_zero {p : Params} (hasIs : p.underflow = .asIs) :
    respond p (.fadd 0x80C00000 0x00800000) = bareResponse 0x20 0x80000000 := by
  have hrenorm : renorm (combined p.alignFar (decompose 0x80C00000) (decompose 0x00800000)) = ⟨true, -127, 0x800000⟩ := by
    cases p.alignFar <;> decide
  have hadd := addPatterns_of_accepted (p := p) (x := 0x80C00000) (y := 0x00800000) (.inr (by decide))
  rw [hrenorm, hasIs, show finish .asIs ⟨true, -127, 0x800000⟩ = .ok (0x80000000, ⟨false, true⟩) by decide] at hadd
  exact respond_fadd_of_ok hadd

/-! ### The obligations -/

/-- Settles O33: the classes of a sum under FLUSH, of which REJECT leaves out PACK_RANGE. -/
theorem defaultResultClasses : Obligations.DefaultResultClasses := by
  intro x y s i hreject _ hflush hi
  obtain ⟨f, r, hresponse, hclass⟩ := respond_flushClass hi hflush
  obtain ⟨t, hexec, hanswered⟩ := exec_answers hresponse
  refine ⟨t, f, r, hexec, hanswered, ?_, hclass.isSubnormalKind_eq_false, hclass.ne_negative_zero⟩
  rw [hreject] at hclass
  cases hclass with
  | unsupported => exact .inl ⟨rfl, rfl⟩
  | packRange hraw => cases hraw
  | normal hr => exact .inr (.inl ⟨rfl, hr⟩)
  | zero => exact .inr (.inr (.inl ⟨rfl, rfl⟩))
  | underflow => exact .inr (.inr (.inr (.inl ⟨rfl, rfl⟩)))
  | overflow hr => exact .inr (.inr (.inr (.inr ⟨rfl, hr⟩)))

/-- Settles O31: a zero sum is the zero triple, the classes under FLUSH hold no negative zero, and under AS_IS a sum that
underflows to the mantissa 0x800000 is one. -/
theorem noNegativeZero : Obligations.NoNegativeZero := by
  refine ⟨fun x y s haccepted => ⟨fun hzero => ?_, fun hzero => ?_⟩, fun p x y hflush => ⟨?_, ?_⟩,
    fun p hasIs => ⟨?_, ?_⟩⟩
  · exact exec_answers (respond_fadd_of_combined_zero haccepted hzero)
  · rw [← isSpecial_flipSign y] at haccepted
    exact exec_answers ((respond_fsub ..).trans (respond_fadd_of_combined_zero haccepted hzero))
  · exact respond_r_ne_negative_zero (.inl rfl) hflush
  · exact respond_r_ne_negative_zero (.inr rfl) hflush
  · exact ⟨0x80C00000, 0x00800000, congrArg Response.r (respond_fadd_negative_zero hasIs)⟩
  · exact ⟨0x80C00000, 0x80800000, congrArg Response.r (respond_fadd_negative_zero hasIs)⟩

/-- Settles O29: the two sums have the same response. -/
theorem faddCommutes : Obligations.FaddCommutes := fun x y s => by
  rw [exec_eq, exec_eq, respond_fadd_comm]

/-- Settles O30: a zero leaves the triple of a normal pattern as it is. -/
theorem zeroIsFaddIdentity : Obligations.ZeroIsFaddIdentity := fun _ _ s hx hz =>
  exec_answers (respond_fadd_zero_right s.params hx (isTrueZero_of_zero hz))

/-- Settles O32: the two operations are one sum, whose mantissas cancel. -/
theorem selfCancellation : Obligations.SelfCancellation := fun x s hx => by
  have hspecial : isSpecial x = false := hx.elim isSpecial_of_isNormal isSpecial_of_isTrueZero
  have hcancels := exec_answers (s := s) (respond_fadd_flipSign_self s.params hspecial)
  exact ⟨hcancels, hcancels⟩

/-- Settles O37: the difference is the flipped pattern plus a zero, in the other order. -/
theorem subtractingFromZeroFlipsSign : Obligations.SubtractingFromZeroFlipsSign := fun x z s hx hz => by
  have hflipped : isNormal (flipSign x) = true := by rw [isNormal_flipSign, hx]
  apply exec_answers
  calc respond s.params (.fsub z x)
    _ = respond s.params (.fadd z (flipSign x)) := respond_fsub ..
    _ = respond s.params (.fadd (flipSign x) z) := respond_fadd_comm ..
    _ = bareResponse 0 (flipSign x) := respond_fadd_zero_right _ hflipped (isTrueZero_of_zero hz)

/-- Settles O28. -/
theorem fsubIsFaddOfFlipped : Obligations.FsubIsFaddOfFlipped := fun x y s =>
  ⟨exec_fsub x y s, exec_answers (respond_fsub s.params x y)⟩

/-- Settles O34: the model evaluates each of the eight fixed sums. -/
theorem resultsForListedOperands : Obligations.ResultsForListedOperands := by
  unfold Obligations.ResultsForListedOperands
  decide

end Sys2Proof.Machine

/-! SUPPORT. Proofs about faults and status flags (spec/60_exceptions.md): the flags of every operation's response as one formula each,
the outputs under a fault, and what stops a step. -/

namespace Sys2Proof.Machine

open Sys2Proof.Config

/-! ### The flags of a sum (R200, R203, R206) -/

/-- R206: the status flags of a renormalized triple. -/
def statusFlags (t : Triple) : FlagBits :=
  if t.exp = 128 then 0x10 else if t.man ≠ 0 ∧ t.exp = -127 then 0x20 else 0

/-- The renormalized triple of the sum of two patterns (R180), whose class decides the flags. -/
abbrev sumTriple (p : Params) (x y : Word) : Triple := renorm (combined p.alignFar (decompose x) (decompose y))

/-- R205: the flags of a sum, in the order of the checks: the operands, the exponent at `pack`, the status. -/
def sumFlags (p : Params) (x y : Word) : FlagBits :=
  if p.specialInput = .reject ∧ (isSpecial x = true ∨ isSpecial y = true) then 0x02
  else if 128 < (sumTriple p x y).exp then 0x08
  else statusFlags (sumTriple p x y)

theorem statusFlags_cases (t : Triple) : statusFlags t = 0 ∨ statusFlags t = 0x10 ∨ statusFlags t = 0x20 := by
  unfold statusFlags
  split_ifs <;> simp

theorem statusFlags_overflow (t : Triple) : statusFlags t &&& 0x10 ≠ 0 ↔ t.exp = 128 := by
  unfold statusFlags
  split_ifs <;> simp_all

theorem statusFlags_underflow (t : Triple) : statusFlags t &&& 0x20 ≠ 0 ↔ t.man ≠ 0 ∧ t.exp = -127 := by
  unfold statusFlags
  split_ifs <;> simp_all

section Sum

variable {p : Params} {x y : Word}

theorem neg_127_le_sumTriple_exp (p : Params) (x y : Word) : -127 ≤ (sumTriple p x y).exp := by
  obtain ⟨hlo, -, hman⟩ := combined_decompose_range p.alignFar x y
  exact renorm_exp_ge _ hman hlo

/-- R165: only a carry at exponent 128 passes the largest exponent, and by 1. -/
theorem sumTriple_exp_le (p : Params) (x y : Word) : (sumTriple p x y).exp ≤ 129 := by
  obtain ⟨hlo, hhi, -⟩ := combined_decompose_range p.alignFar x y
  unfold sumTriple
  rcases renorm_exp_cases hlo with ⟨-, h⟩ | h <;> omega

/-- R163: a mantissa of 0 is that of the zero triple. -/
theorem sumTriple_of_man_zero (h : (sumTriple p x y).man = 0) : sumTriple p x y = ⟨false, -127, 0⟩ := by
  obtain ⟨hlo, -, hman⟩ := combined_decompose_range p.alignFar x y
  exact (renorm_eq_zero_or_man_ne_zero hman hlo).resolve_right (not_not.mpr h)

/-- R181, R202: a refused sum is answered with UNSUPPORTED. -/
theorem respond_fadd_of_rejected (hp : p.specialInput = .reject) (hxy : isSpecial x = true ∨ isSpecial y = true) :
    respond p (.fadd x y) = bareResponse 0x02 0 :=
  respond_fadd_of_error (addPatterns_of_rejected hp hxy)

section Accepted

variable (haccepted : p.specialInput = .raw ∨ isSpecial x = false ∧ isSpecial y = false)

include haccepted

/-- R165, R203: an exponent above 128 is answered with PACK_RANGE. -/
theorem respond_fadd_of_exp_gt_128 (h : 128 < (sumTriple p x y).exp) : respond p (.fadd x y) = bareResponse 0x08 0 :=
  respond_fadd_of_error ((addPatterns_of_accepted haccepted).trans (finish_of_exp_gt_128 _ h))

/-- R168: under FLUSH an underflowed sum is answered with 0 and UNDERFLOW. -/
theorem respond_fadd_of_flushed (hm : (sumTriple p x y).man ≠ 0) (he : (sumTriple p x y).exp = -127)
    (hflush : p.underflow = .flush) : respond p (.fadd x y) = bareResponse 0x20 0 := by
  have hadd := addPatterns_of_accepted haccepted
  rw [hflush, finish_of_flushed hm he] at hadd
  exact respond_fadd_of_ok hadd

/-- R166, R167: any other sum is answered with the packed triple and its status. -/
theorem respond_fadd_of_packed (hle : (sumTriple p x y).exp ≤ 128)
    (hnot : ¬ ((sumTriple p x y).man ≠ 0 ∧ (sumTriple p x y).exp = -127 ∧ p.underflow = .flush)) :
    ∃ r, respond p (.fadd x y) = bareResponse (statusFlags (sumTriple p x y)) r ∧
      signBit r = (sumTriple p x y).sign ∧ (biasedExp r : Int) = (sumTriple p x y).exp + 127 ∧
      fraction r = (sumTriple p x y).man % 2 ^ 23 := by
  obtain ⟨r, hpacked, hfields⟩ := finish_of_packed (neg_127_le_sumTriple_exp p x y) hle hnot
  have hresponse := respond_fadd_of_ok ((addPatterns_of_accepted haccepted).trans hpacked)
  rw [statusMask_decide (by omega)] at hresponse
  exact ⟨r, hresponse, hfields⟩

theorem respond_fadd_flags_of_exp_le (hle : (sumTriple p x y).exp ≤ 128) :
    (respond p (.fadd x y)).flags = statusFlags (sumTriple p x y) := by
  by_cases hflushed : (sumTriple p x y).man ≠ 0 ∧ (sumTriple p x y).exp = -127 ∧ p.underflow = .flush
  · obtain ⟨hm, he, hflush⟩ := hflushed
    rw [respond_fadd_of_flushed haccepted hm he hflush, statusFlags, if_neg (by omega), if_pos ⟨hm, he⟩]
    rfl
  · obtain ⟨r, hresponse, -⟩ := respond_fadd_of_packed haccepted hle hflushed
    rw [hresponse]
    rfl

end Accepted

theorem respond_fadd_flags (p : Params) (x y : Word) : (respond p (.fadd x y)).flags = sumFlags p x y := by
  unfold sumFlags
  split_ifs with hrejected hbig
  · rw [respond_fadd_of_rejected hrejected.1 hrejected.2]
    rfl
  · rw [respond_fadd_of_exp_gt_128 (accepted_of_not_rejected hrejected) hbig]
    rfl
  · exact respond_fadd_flags_of_exp_le (accepted_of_not_rejected hrejected) (not_lt.mp hbig)

theorem sumFlags_eq_unsupported :
    sumFlags p x y = 0x02#6 ↔ p.specialInput = .reject ∧ (isSpecial x = true ∨ isSpecial y = true) := by
  unfold sumFlags
  split_ifs with hrejected hbig
  · simp [hrejected]
  · simp [hrejected]
  · rcases statusFlags_cases (sumTriple p x y) with h | h | h <;> simp [h, hrejected]

/-- R205: a sum sets UNSUPPORTED, PACK_RANGE, one status bit or nothing. -/
theorem sumFlags_cases (p : Params) (x y : Word) : sumFlags p x y = 0x02 ∨ sumFlags p x y = 0x08 ∨ sumFlags p x y = 0 ∨
    sumFlags p x y = 0x10 ∨ sumFlags p x y = 0x20 := by
  unfold sumFlags
  split_ifs with hrejected hbig
  · exact .inl rfl
  · exact .inr (.inl rfl)
  · exact .inr (.inr (statusFlags_cases _))

/-- R201: ILLEGAL_OP is not a sum's. -/
theorem sumFlags_ne_illegalOp : sumFlags p x y ≠ 0x01#6 := by
  rcases sumFlags_cases p x y with h | h | h | h | h <;> simp [h]

/-- R123: no sum shifts by more than 23. -/
theorem sumFlags_ne_shiftRange : sumFlags p x y ≠ 0x04#6 := by
  rcases sumFlags_cases p x y with h | h | h | h | h <;> simp [h]

/-- R203: REJECT keeps the exponent at 128 or below, and RAW at 129 or below. -/
theorem sumFlags_eq_packRange : sumFlags p x y = 0x08#6 ↔ p.specialInput = .raw ∧ (sumTriple p x y).exp = 129 := by
  have hle := sumTriple_exp_le p x y
  unfold sumFlags
  split_ifs with hrejected hbig
  · simp [hrejected.1]
  · have hraw : p.specialInput = .raw := (accepted_of_not_rejected hrejected).resolve_right
      fun ⟨hx, hy⟩ => hbig.not_ge (renorm_combined_exp_le hx hy)
    exact iff_of_true rfl ⟨hraw, by omega⟩
  · have hne : (sumTriple p x y).exp ≠ 129 := by omega
    rcases statusFlags_cases (sumTriple p x y) with h | h | h <;> simp [h, hne]

/-- R206: for accepted operands the status bits say which class the renormalized triple is in. -/
theorem sumFlags_status (haccepted : p.specialInput = .raw ∨ isSpecial x = false ∧ isSpecial y = false) :
    (sumFlags p x y &&& 0x10 ≠ 0 ↔ (sumTriple p x y).exp = 128) ∧
    (sumFlags p x y &&& 0x20 ≠ 0 ↔ (sumTriple p x y).man ≠ 0 ∧ (sumTriple p x y).exp = -127) ∧
    ((sumTriple p x y).man = 0 → sumFlags p x y = 0) := by
  have hnot : ¬ (p.specialInput = .reject ∧ (isSpecial x = true ∨ isSpecial y = true)) := by
    rcases haccepted with h | ⟨hx, hy⟩ <;> simp [*]
  rw [sumFlags, if_neg hnot]
  split_ifs with hbig
  · have h128 : (sumTriple p x y).exp ≠ 128 := by omega
    have h127 : (sumTriple p x y).exp ≠ -127 := by omega
    refine ⟨by simp [h128], by simp [h127], fun hzero => ?_⟩
    rw [sumTriple_of_man_zero hzero] at h127
    exact absurd rfl h127
  · refine ⟨statusFlags_overflow _, statusFlags_underflow _, fun hzero => ?_⟩
    rw [sumTriple_of_man_zero hzero]
    rfl

end Sum

/-! ### The flags of the other operations (R202, R203) -/

theorem respond_decompose_flags (params : Params) (p : Word) : (respond params (.decompose p)).flags =
    if params.specialInput = .reject ∧ isSpecial p = true then 0x02 else 0 := by
  split_ifs with hrejected
  · rw [respond_decompose_of_rejected hrejected.1 hrejected.2]
    rfl
  · have haccepted := accepted_of_not_rejected (x := p) (y := p) (by rwa [or_self])
    rw [respond_decompose_of_accepted (haccepted.imp_right And.left)]
    rfl

theorem respond_pack_flags (params : Params) (sg : Bool) (e : Int) (m : Word) : (respond params (.pack sg e m)).flags =
    if e < -127 ∨ 128 < e then 0x08 else 0 := by
  split_ifs with hrange
  · rw [respond_pack_of_out_of_range hrange]
    rfl
  · obtain ⟨r, hr, -⟩ := pack_ok (s := sg) (e := e) m.toNat (by omega) (by omega)
    rw [respond_pack_of_ok hr]
    rfl

theorem respond_shiftRound_flags (params : Params) (m : Word) (n : Nat) : (respond params (.shiftRound m n)).flags =
    if 23 < n then 0x04 else 0 := by
  split_ifs with hn
  · rw [respond_shiftRound_of_gt m hn]
    rfl
  · rw [respond_shiftRound_of_le m (not_lt.mp hn)]
    rfl

/-- R200 to R203: the flags of every request's response, by its `op`. -/
theorem respondRequest_flags_cases (params : Params) (q : Request) :
    (q.op = 0b000#3 ∧ (respondRequest params q).flags = sumFlags params q.a q.b) ∨
    (q.op = 0b001#3 ∧ (respondRequest params q).flags = sumFlags params q.a (flipSign q.b)) ∨
    (q.op = 0b010#3 ∧ (respondRequest params q).flags =
      if params.specialInput = .reject ∧ isSpecial q.a = true then 0x02 else 0) ∨
    (q.op = 0b011#3 ∧ (respondRequest params q).flags = if q.a.toInt < -127 ∨ 128 < q.a.toInt then 0x08 else 0) ∨
    (q.op = 0b100#3 ∧ (respondRequest params q).flags = if 23 < q.b.toNat then 0x04 else 0) ∨
    ((q.op = 0b101#3 ∨ q.op = 0b110#3 ∨ q.op = 0b111#3) ∧ (respondRequest params q).flags = 0x01) := by
  rcases op_cases q.op with hop | hop | hop | hop | hop | hop
  · rw [respondRequest_of_decode (decodeRequest_of_fadd hop), respond_fadd_flags]
    simp [hop]
  · rw [respondRequest_of_decode (decodeRequest_of_fsub hop), respond_fsub, respond_fadd_flags]
    simp [hop]
  · rw [respondRequest_of_decode (decodeRequest_of_decompose hop), respond_decompose_flags]
    simp [hop]
  · rw [respondRequest_of_decode (decodeRequest_of_pack hop), respond_pack_flags]
    simp [hop]
  · rw [respondRequest_of_decode (decodeRequest_of_shiftRound hop), respond_shiftRound_flags]
    simp [hop]
  · rw [respondRequest_of_decode_error (decodeRequest_of_reserved hop)]
    exact .inr (.inr (.inr (.inr (.inr ⟨hop, rfl⟩))))

/-! ### What a legal response says (R204, R205) -/

theorem flags_of_legal {q : Response} (h : Response.legal q = true) : q.flags = 0 ∨ q.flags = 0x01 ∨ q.flags = 0x02 ∨
    q.flags = 0x04 ∨ q.flags = 0x08 ∨ q.flags = 0x10 ∨ q.flags = 0x20 := by
  simp only [Response.legal, Bool.and_eq_true, and_assoc] at h
  obtain ⟨hflags, -⟩ := h
  simpa using hflags

/-- R204: under a fault bit every data output is 0. -/
theorem eq_bareResponse_of_fault {q : Response} (h : Response.legal q = true) (hfault : hasFault q.flags = true) :
    q = bareResponse q.flags 0 := by
  obtain ⟨flags, rSign, rExp, rMan, r⟩ := q
  have hne : flags ≠ 0 := by rintro rfl; simp [hasFault] at hfault
  simp only [Response.legal, Bool.and_eq_true, and_assoc] at h
  obtain ⟨-, htriple, hr, -⟩ := h
  simp_all [bareResponse]

theorem fault_flags_of_legal {q : Response} (h : Response.legal q = true) (hfault : hasFault q.flags = true) :
    q.flags = 0x01 ∨ q.flags = 0x02 ∨ q.flags = 0x04 ∨ q.flags = 0x08 := by
  rcases flags_of_legal h with hf | hf | hf | hf | hf | hf | hf
  · rw [hf] at hfault; cases hfault
  · exact .inl hf
  · exact .inr (.inl hf)
  · exact .inr (.inr (.inl hf))
  · exact .inr (.inr (.inr hf))
  · rw [hf] at hfault; cases hfault
  · rw [hf] at hfault; cases hfault

/-! ### The obligations -/

/-- Settles O38: of the flags each operation can answer with, only the refused operand's is UNSUPPORTED. -/
theorem unsupportedExactly : Obligations.UnsupportedExactly := by
  refine ⟨fun params q => ?_, fun p => ?_, fun p hzero => ?_⟩
  · rcases respondRequest_flags_cases params q with
      ⟨hop, hf⟩ | ⟨hop, hf⟩ | ⟨hop, hf⟩ | ⟨hop, hf⟩ | ⟨hop, hf⟩ | ⟨hop | hop | hop, hf⟩ <;> rw [hf]
    · simp [hop, sumFlags_eq_unsupported]
    · simp [hop, sumFlags_eq_unsupported]
    all_goals simp [hop, ite_eq_iff]
  · rw [isSpecial_iff, biasedExp, fraction, ← BitVec.toNat_inj, ← BitVec.toNat_inj, Ne, Ne, ← BitVec.toNat_inj]
    rfl
  · exact isSpecial_of_isTrueZero (beq_iff_eq.mpr hzero)

/-- Settles O39, on the flags of each operation; in a sum the exponent bounds tell RAW from REJECT (`sumFlags_eq_packRange`). -/
theorem rangeFaultsExactly : Obligations.RangeFaultsExactly := by
  intro params q
  rcases respondRequest_flags_cases params q with
    ⟨hop, hf⟩ | ⟨hop, hf⟩ | ⟨hop, hf⟩ | ⟨hop, hf⟩ | ⟨hop, hf⟩ | ⟨hop | hop | hop, hf⟩ <;> rw [hf]
  · simp [hop, sumFlags_ne_shiftRange, sumFlags_eq_packRange]
  · simp [hop, sumFlags_ne_shiftRange, sumFlags_eq_packRange, flipSign]
  all_goals simp [hop, ite_eq_iff, -ite_eq_left_iff]

/-- Settles O40: the request is answered like any other (`step_present`), and a legal response with a fault bit has nothing else. -/
theorem faultingResponseOutputs : Obligations.FaultingResponseOutputs := by
  intro s q hfault
  have hlegal := legal_respondRequest s.params q
  refine ⟨_, (respondRequest s.params q).flags, step_present s q, ?_, fault_flags_of_legal hlegal hfault⟩
  rw [← eq_bareResponse_of_fault hlegal hfault]
  exact State.answered_answer _ _

/-- Settles O41: every response is legal, and only a reserved `op` has ILLEGAL_OP among its flags. -/
theorem atMostOneFlag : Obligations.AtMostOneFlag := by
  refine fun params q => ⟨flags_of_legal (legal_respondRequest params q), ?_, fun hreject hop ha hb => ?_⟩
  · rcases respondRequest_flags_cases params q with
      ⟨hop, hf⟩ | ⟨hop, hf⟩ | ⟨hop, hf⟩ | ⟨hop, hf⟩ | ⟨hop, hf⟩ | ⟨hop | hop | hop, hf⟩ <;> rw [hf]
    · simp [hop, sumFlags_ne_illegalOp]
    · simp [hop, sumFlags_ne_illegalOp]
    all_goals simp [hop, ite_eq_iff]
  · exact (unsupportedExactly.1 params q).mpr ⟨hreject, .inr ⟨hop, .inl ha⟩⟩

/-- Settles O42: the status bits name the class of the renormalized triple, and `finish` gives the result of each class. -/
theorem statusFlagsExactly : Obligations.StatusFlagsExactly := by
  refine ⟨?_, respond_fsub, fun params x y hreject hxy => ?_, fun params p m sg e k => ⟨?_, ?_, ?_⟩⟩
  · intro params x y n q haccepted
    have hflags : q.flags = sumFlags params x y := respond_fadd_flags params x y
    obtain ⟨hover, hunder, hzero⟩ := sumFlags_status haccepted
    rw [hflags]
    refine ⟨hover, hunder, hzero, fun hset => ?_, fun hset hflush => ?_, fun hset hasIs => ?_⟩
    · have h128 := hover.mp hset
      obtain ⟨r, hresponse, hsign, hexp, hfrac⟩ := respond_fadd_of_packed haccepted h128.le (by omega)
      rw [show q = _ from hresponse]
      exact ⟨by simp only [bareResponse]; omega, hsign, hfrac⟩
    · obtain ⟨hm, he⟩ := hunder.mp hset
      rw [show q = _ from respond_fadd_of_flushed haccepted hm he hflush]
      rfl
    · obtain ⟨hm, he⟩ := hunder.mp hset
      obtain ⟨r, hresponse, hsign, hexp, hfrac⟩ := respond_fadd_of_packed haccepted (by omega) (by simp [hasIs])
      rw [show q = _ from hresponse]
      exact ⟨by simp only [bareResponse]; omega, hsign, hfrac⟩
  · rw [respond_fadd_of_rejected hreject hxy]
    rfl
  · rw [respond_decompose_flags]
    split <;> rfl
  · rw [respond_pack_flags]
    split <;> rfl
  · rw [respond_shiftRound_flags]
    split <;> rfl

/-- Settles O51, by the cases of one step. -/
theorem onlyClockStopRefuses : Obligations.OnlyClockStopRefuses := by
  intro s
  rcases step_cases s with ⟨-, hs⟩ | ⟨_, _, -, -, -, hs⟩ | ⟨_, _, -, -, hs⟩ | ⟨rest, hin, hlat, hs⟩ | ⟨_, -, -, hs⟩
  · exact .inl ⟨_, hs⟩
  · exact .inl ⟨_, hs⟩
  · exact .inl ⟨_, hs⟩
  · exact .inr ⟨hs, hlat, by rw [hin]; rfl⟩
  · exact .inl ⟨_, hs⟩

/-- Settles O52: the two cases of one step in which the host stops the clock. -/
theorem clockStop : Obligations.ClockStop := by
  intro s rest hin
  rcases step_cases s with ⟨h, -⟩ | ⟨_, _, h, -⟩ | ⟨_, _, h, -⟩ | ⟨_, h, hlat, hs⟩ | ⟨_, h, hlat, hs⟩ <;>
    rw [hin] at h <;> cases h
  · exact ⟨fun _ => hs, fun h0 => by omega⟩
  · exact ⟨fun h1 => by omega, fun _ => hs⟩

end Sys2Proof.Machine

/-! SUPPORT. Proofs about reset and hazards (spec/70_reset_and_hazards.md): what a reset cycle delivers and discards, the ports before the
first of them, and the two ends of the choice of `LATENCY`. -/

namespace Sys2Proof.Machine

open Sys2Proof.Config

/-! ### What a cycle accepts -/

@[simp] theorem InPorts.accepted_isSome (params : Params) (ports : InPorts) :
    (ports.accepted params).isSome = ports.reqValid := by
  cases h : ports.reqValid <;> simp [InPorts.accepted, h]

theorem InPorts.accepted_of_reqValid {params : Params} {ports : InPorts} (h : ports.reqValid = true) :
    ports.accepted params = some (respondRequest params ports.req) := by
  simp [InPorts.accepted, h]

/-- What a cycle accepts does not depend on `LATENCY` (R28). -/
@[simp] theorem HostEvent.accepted_latency (params : Params) (l : Nat) (ev : HostEvent) :
    ev.accepted { params with latency := l } = ev.accepted params := by
  cases ev with
  | cycle ports => simp only [HostEvent.accepted, InPorts.accepted, respondRequest_latency]
  | clockStop => rfl

/-! ### The ports and the distance from power-up -/

@[simp] theorem Boot.afterCycle_eq_powerUp (b : Boot) : b.afterCycle = .powerUp ↔ b = .powerUp := by cases b <;> decide

/-- Ports that are not yet reliable show a free value on `resp_valid`, whatever is due (R233). -/
theorem State.respValid_of_not_ready {s : State} (hlat : 1 ≤ s.params.latency) (hboot : s.boot ≠ .ready) :
    s.respValid = powerUpRespValid s.cycle := by
  have hunreliable : ¬ s.reliable = true := by
    rw [State.reliable_iff]
    exact not_or.mpr ⟨by omega, hboot⟩
  rw [State.respValid, if_neg hunreliable]

theorem State.clockReset_boot_ne_powerUp (s : State) : s.clockReset.boot ≠ .powerUp := Boot.afterReset_ne_powerUp s.boot

/-- The ports are reliable in a reset cycle that has another before it (R231, R233). -/
theorem State.reliable_clockReset {s : State} (h : s.boot ≠ .powerUp) : s.clockReset.reliable = true :=
  (State.reliable_iff _).mpr (.inr ((Boot.afterReset_eq_ready _).mpr h))

/-- A reset cycle on empty stages, with a reset before it, delivers nothing (R231). -/
theorem State.respValid_clockReset_of_empty {s : State} (hboot : s.boot ≠ .powerUp)
    (hpipe : s.pipe = List.replicate s.params.latency none) : s.clockReset.respValid = false := by
  rw [State.respValid_of_reliable (State.reliable_clockReset hboot), State.clockReset_resp, hpipe]
  cases s.params.latency <;> rfl

/-- What one step can do to the distance from power-up: only a cycle with `rst` = 1 on a block that has the port runs
`afterReset`. -/
theorem step_boot_cases {s t : State} (h : step s = .next t) :
    t.boot = s.boot ∨ t.boot = s.boot.afterCycle ∨
    (t.boot = s.boot.afterReset ∧ 1 ≤ s.params.latency ∧ ∃ ports rest, s.inputs = .cycle ports :: rest ∧ ports.rst = true) := by
  rcases step_cases s with ⟨-, hs⟩ | ⟨ports, rest, hin, hrst, hlat, hs⟩ | ⟨_, _, -, -, hs⟩ | ⟨_, -, -, hs⟩ | ⟨_, -, -, hs⟩ <;>
    rw [hs] at h <;> cases h
  · exact .inr (.inl rfl)
  · exact .inr (.inr ⟨rfl, hlat, ports, rest, hin, hrst⟩)
  · exact .inr (.inl rfl)
  · exact .inl rfl

/-- A run of quiet cycles from power-up, however long, ends in power-up (R233). -/
theorem stepN_quiet_of_powerUp {s : State} {evs rest : List HostEvent} (hboot : s.boot = .powerUp)
    (hin : s.inputs = evs ++ rest) (hquiet : ∀ ev ∈ evs, ev.quiet = true) :
    ∃ t, stepN evs.length s = .next t ∧ t.params = s.params ∧ t.inputs = rest ∧ t.boot = .powerUp := by
  obtain ⟨t, hrun, hparams, hrest, hboot', -, -⟩ := stepN_quiet evs rest s hin hquiet
  refine ⟨t, hrun, hparams, hrest, ?_⟩
  rcases eq_or_ne evs [] with rfl | hne
  · cases hrun; exact hboot
  · rw [hboot' hne, hboot, Boot.afterCycle_powerUp]

/-! ### Runs that begin at a reset -/

/-- After a reset cycle `resp_valid` is 0 in each of the next `LATENCY` cycles, and in a later one while nothing has been presented
since, whatever the stages held and whether or not this was the first reset (R231 to R233). -/
theorem stepN_reset_quiet {s : State} {ports : InPorts} {evs rest : List HostEvent}
    (hin : s.inputs = .cycle ports :: (evs ++ rest)) (hrst : ports.rst = true) (hlat : 1 ≤ s.params.latency) (hne : evs ≠ [])
    (hquiet : ∀ ev ∈ evs, ev.quiet = true)
    (hnone : evs.length ≤ s.params.latency ∨ ∀ ev ∈ evs, ev.accepted s.params = none) :
    ∃ t, stepN (evs.length + 1) s = .next t ∧ t.respValid = false := by
  obtain ⟨t, hrun, hparams, hboot, hresp⟩ := stepN_quiet_of_empty_pipe
    (s := ({ s with inputs := evs ++ rest } : State).clockReset) rfl rfl hne hquiet hnone
  have hreliable : t.reliable = true := State.reliable_of_afterCycle hparams hboot (.inr (State.clockReset_boot_ne_powerUp _))
  exact ⟨t, (stepN_succ_of_next (step_of_reset hin hrst hlat)).trans hrun,
    by rw [State.respValid_of_reliable hreliable, hresp]; rfl⟩

/-- From reset, what cycle `k` accepts is due `LATENCY` cycles after it, and the ports show it (R28, R30). -/
theorem stepN_resetWith_due {p : Params} {evs pad : List HostEvent} {k : Nat} {ev : HostEvent} (hev : evs[k]? = some ev)
    (hquiet : ∀ e ∈ evs, e.quiet = true) (hquiet' : ∀ e ∈ pad, e.quiet = true) (hpad : pad.length = p.latency) :
    ∃ t, stepN (k + 1 + p.latency) { State.resetWith p with inputs := evs ++ pad } = .next t ∧ t.resp = ev.accepted p ∧
      t.respValid = t.resp.isSome ∧ ∀ q, t.resp = some q → t.outputs = q := by
  obtain ⟨hk, -⟩ := List.getElem?_eq_some_iff.mp hev
  have hrun : ∀ e ∈ (evs ++ pad).take (k + 1 + p.latency), e.quiet = true := fun e he =>
    (List.mem_append.mp (List.mem_of_mem_take he)).elim (hquiet e) (hquiet' e)
  have hcycle : ((evs ++ pad).take (k + 1 + p.latency))[k + p.latency - p.latency]? = some ev := by
    rw [Nat.add_sub_cancel, List.getElem?_take_of_lt (by omega), List.getElem?_append_left hk, hev]
  have hlength : ((evs ++ pad).take (k + 1 + p.latency)).length = k + p.latency + 1 := by
    rw [List.length_take_of_le (by rw [List.length_append]; omega), Nat.add_right_comm]
  obtain ⟨t, hstep, -, -, hdue, -, hports⟩ := responsesInOrderAfterLatency.2
    { State.resetWith p with inputs := evs ++ pad } _ _ (k + p.latency) List.length_replicate
    (List.take_append_drop (k + 1 + p.latency) (evs ++ pad)).symm hrun hlength
  rw [Nat.add_right_comm] at hstep
  exact ⟨t, hstep, hdue ev (Nat.le_add_left _ _) hcycle, hports (.inr nofun)⟩

/-! ### A cycle of a block without stages -/

/-- With LATENCY = 0 a cycle accepts what is presented in it, whatever `rst` is (R230). -/
theorem step_of_latency_zero {s : State} {ports : InPorts} {rest : List HostEvent} (hin : s.inputs = .cycle ports :: rest)
    (hlat : s.params.latency = 0) :
    step s = .next (({ s with inputs := rest } : State).clock (ports.accepted s.params)) := by
  rcases step_cases s with ⟨h, -⟩ | ⟨_, _, -, -, hpos, -⟩ | ⟨_, _, h, -, hs⟩ | ⟨_, h, -⟩ | ⟨_, h, -⟩
  · rw [hin] at h; cases h
  · omega
  · rw [hin] at h; cases h; exact hs
  · rw [hin] at h; cases h
  · rw [hin] at h; cases h

/-- What a block without stages and without reset accepts is due in the same cycle, and its ports show it (R28, R230). -/
theorem State.ports_clock_of_latency_zero {s : State} {c : Slot} (hlat : s.params.latency = 0) (hpipe : s.pipe = []) :
    (s.clock c).respValid = c.isSome ∧ ∀ q, c = some q → (s.clock c).outputs = q := by
  have hreliable : (s.clock c).reliable = true := (State.reliable_iff _).mpr (.inl hlat)
  have hresp : (s.clock c).resp = c := by simp [hpipe]
  exact ⟨by rw [State.respValid_of_reliable hreliable, hresp], fun q hq => State.outputs_of_reliable hreliable (hresp.trans hq)⟩

/-! ### The obligations -/

/-- Settles O48: the reset cycle is `clockReset`; the cycles after it start from empty stages, so what was pending is gone and a new
request takes `LATENCY` cycles, as from reset. -/
theorem resetDiscardsPending : Obligations.ResetDiscardsPending := by
  intro s ports evs rest hlen hlat hrst hin
  have hs := step_of_reset hin hrst hlat
  refine ⟨⟨_, hs, ?_, fun hboot => ?_, rfl, rfl, rfl⟩, fun hquiet hne hfew => ?_, fun q evs' hevs hlen' hquiet => ?_,
    fun ports' hevs hrst' => ?_⟩
  · cases hpipe : s.pipe with
    | nil => rw [hpipe, List.length_nil] at hlen; omega
    | cons c cs => simp
  · have hreliable := State.reliable_clockReset (s := { s with inputs := evs ++ rest }) hboot
    exact ⟨State.respValid_of_reliable hreliable, fun q => State.outputs_of_reliable hreliable⟩
  · exact stepN_reset_quiet hin hrst hlat hne hquiet (.inl hfew)
  · obtain ⟨t, hrun, -, hports⟩ := stepN_present_quiet (s := ({ s with inputs := evs ++ rest } : State).clockReset)
      List.length_replicate (congrArg (· ++ rest) hevs) hlen' hquiet
    exact ⟨t, (stepN_succ_of_next hs).trans hrun, hports (.inr (State.clockReset_boot_ne_powerUp _))⟩
  · have hs' := step_of_reset (s := ({ s with inputs := evs ++ rest } : State).clockReset) (congrArg (· ++ rest) hevs) hrst' hlat
    refine ⟨_, (stepN_succ_of_next hs).trans (stepN_succ_of_next hs'), ?_, rfl, rfl⟩
    exact State.respValid_clockReset_of_empty (State.clockReset_boot_ne_powerUp { s with inputs := evs ++ rest }) rfl

/-- Settles O50: in either build what cycle `k` accepts is due `LATENCY` cycles later (`stepN_resetWith_due`), and that does not
depend on `LATENCY` (`HostEvent.accepted_latency`). -/
theorem latencyDoesNotChangeResults : Obligations.LatencyDoesNotChangeResults := by
  intro p₁ p₂ evs pad₁ pad₂ k hparams hquiet hquiet₁ hquiet₂ hpad₁ hpad₂ hk
  have hev : evs[k]? = some evs[k] := List.getElem?_eq_getElem hk
  obtain ⟨t₁, hrun₁, hresp₁, hvalid₁, hout₁⟩ := stepN_resetWith_due hev hquiet hquiet₁ hpad₁
  obtain ⟨t₂, hrun₂, hresp₂, hvalid₂, hout₂⟩ := stepN_resetWith_due hev hquiet hquiet₂ hpad₂
  have hsame : t₁.resp = t₂.resp := by rw [hresp₁, hresp₂, hparams, HostEvent.accepted_latency]
  refine ⟨t₁, t₂, hrun₁, hrun₂, hsame, by rw [hvalid₁, hvalid₂, hsame], fun ports hports hreq => ?_⟩
  have hq : t₂.resp = some (respondRequest p₂ ports.req) := by
    rw [hresp₂, Option.some.inj (hev.symm.trans hports)]
    exact InPorts.accepted_of_reqValid hreq
  exact ⟨by rw [hvalid₂, hq]; rfl, (hout₁ _ (hsame.trans hq)).trans (hout₂ _ hq).symm, hout₂ _ hq⟩

/-- Settles O54: a reset cycle empties the stages whatever they hold, and leaves the power-up, so the cycles after it are those
after any reset (`stepN_reset_quiet`). -/
theorem powerUpResetClearsPipeline : Obligations.PowerUpResetClearsPipeline := by
  intro p ports evs rest hlat hrst
  refine ⟨⟨_, step_of_reset rfl hrst hlat, rfl, rfl, rfl, State.clockReset_boot_ne_powerUp _⟩, fun hne hquiet hnone => ?_⟩
  exact stepN_reset_quiet (s := { State.powerUp p with inputs := .cycle ports :: evs }) (rest := [])
    (by rw [List.append_nil]) hrst hlat hne hquiet hnone

/-- Settles O56: quiet cycles stay in power-up and the first reset cycle is not yet past it, so `resp_valid` is free in all of them
(`State.respValid_of_not_ready`); only a reset cycle changes whether the block is in power-up (`step_boot_cases`). -/
theorem respValidIsFreeUntilReset : Obligations.RespValidIsFreeUntilReset := by
  refine ⟨fun s evs rest hboot hlat hin hquiet => ?_, fun s t ht hboot hleft => ?_, fun s t ht hboot => ?_⟩
  · obtain ⟨t, hrun, hparams, hrest, hboot'⟩ := stepN_quiet_of_powerUp hboot hin hquiet
    have hlat' : 1 ≤ t.params.latency := hparams ▸ hlat
    refine ⟨⟨t, hrun, hboot', State.respValid_of_not_ready hlat' (by rw [hboot']; decide)⟩, fun ports rest' hreset hrst => ?_⟩
    have hs := step_of_reset (hrest.trans hreset) hrst hlat'
    have hfirst : ({ t with inputs := rest' } : State).clockReset.boot = .firstReset := congrArg Boot.afterReset hboot'
    exact ⟨_, (stepN_add hrun).trans (stepN_succ_of_next hs), hfirst, State.respValid_of_not_ready hlat' (by rw [hfirst]; decide)⟩
  · rcases step_boot_cases ht with hsame | hcycle | ⟨-, hlat, hreset⟩
    · exact absurd (hsame.trans hboot) hleft
    · exact absurd (hcycle.trans ((Boot.afterCycle_eq_powerUp _).mpr hboot)) hleft
    · exact ⟨hlat, hreset⟩
  · rcases step_boot_cases ht with hsame | hcycle | ⟨hreset, -, -⟩
    · exact hsame ▸ hboot
    · exact hcycle ▸ mt (Boot.afterCycle_eq_powerUp _).mp hboot
    · exact hreset ▸ Boot.afterReset_ne_powerUp _

/-- Settles O53: with no stages what the cycle accepts is due in the same cycle, and the ports of a block without reset show it. -/
theorem combinationalAtLatencyZero : Obligations.CombinationalAtLatencyZero := by
  intro s ports rest hlat hpipe hin
  obtain ⟨hvalid, hout⟩ := State.ports_clock_of_latency_zero (s := { s with inputs := rest })
    (c := ports.accepted s.params) hlat hpipe
  refine ⟨_, step_of_latency_zero hin hlat, by simp [hpipe], rfl, ?_, fun hreq => ?_⟩
  · rw [hvalid, InPorts.accepted_isSome]
  · exact hout _ (InPorts.accepted_of_reqValid hreq)

end Sys2Proof.Machine
